-- ==== Sys2Proof/Word.lean ====
section
/-! DEFINITION. The words of the machine: 8-bit bytes, 16-bit words, 12-bit immediates, register numbers (00_scope.md R5, 30_encoding.md R71). -/

namespace Sys2Proof

/-- A memory cell, a `V` register, a timer (R5). -/
abbrev Byte := BitVec 8

/-- An instruction word, `I`, `pc`, a stack entry (R5). -/
abbrev Word := BitVec 16

/-- The immediate `nnn` (R71, R73). -/
abbrev Addr12 := BitVec 12

/-- A value of the parameter `FONT`: 16 glyphs of 5 bytes (R5, R6). -/
abbrev Font := Vector Byte 80

/-- A register number `x` or `y`: all 16 values are valid (R73). Key numbers and stack slots have the same range. -/
abbrev RegIdx := Fin 16

/-- Zero extension of an immediate or a byte to 16 bits (R8, R73). -/
def zext16 (n : Nat) (v : BitVec n) : Word := BitVec.ofNat 16 v.toNat

/-- The big-endian word of two bytes, the byte of the lower address first (20_memory.md R52). -/
def bigEndian (hi lo : Byte) : Word := hi ++ lo

end Sys2Proof
end

