-- ==== Sys2Proof/Syntax.lean ====
section
/-! DEFINITION. The instructions: one constructor per row of spec/opcode_table.json, in the table's order (30_encoding.md R75). -/

namespace Sys2Proof

/-- An instruction. `x` and `y` are register numbers, `kk` the immediate byte, `nnn` the immediate address, `n` the
count of sprite rows (R71, R73). -/
inductive Instr where
  | cls                                    -- 00E0
  | ret                                    -- 00EE
  | jp (nnn : Addr12)                      -- 1nnn
  | call (nnn : Addr12)                    -- 2nnn
  | seImm (x : RegIdx) (kk : Byte)         -- 3xkk
  | sneImm (x : RegIdx) (kk : Byte)        -- 4xkk
  | seReg (x y : RegIdx)                   -- 5xy0
  | ldImm (x : RegIdx) (kk : Byte)         -- 6xkk
  | addImm (x : RegIdx) (kk : Byte)        -- 7xkk
  | ldReg (x y : RegIdx)                   -- 8xy0
  | orReg (x y : RegIdx)                   -- 8xy1
  | andReg (x y : RegIdx)                  -- 8xy2
  | xorReg (x y : RegIdx)                  -- 8xy3
  | addReg (x y : RegIdx)                  -- 8xy4
  | subReg (x y : RegIdx)                  -- 8xy5
  | shr (x y : RegIdx)                     -- 8xy6; y is decoded and has no effect (R81)
  | stub7 (x y : RegIdx)                   -- 8xy7
  | stubE (x y : RegIdx)                   -- 8xyE
  | sneReg (x y : RegIdx)                  -- 9xy0
  | ldI (nnn : Addr12)                     -- Annn
  | jpV0 (nnn : Addr12)                    -- Bnnn
  | rnd (x : RegIdx) (kk : Byte)           -- Cxkk
  | drw (x y : RegIdx) (n : Nat)           -- Dxyn
  | skp (x : RegIdx)                       -- Ex9E
  | sknp (x : RegIdx)                      -- ExA1
  | ldVxDT (x : RegIdx)                    -- Fx07
  | ldVxK (x : RegIdx)                     -- Fx0A
  | ldDTVx (x : RegIdx)                    -- Fx15
  | ldSTVx (x : RegIdx)                    -- Fx18
  | addI (x : RegIdx)                      -- Fx1E
  | ldF (x : RegIdx)                       -- Fx29
  | ldB (x : RegIdx)                       -- Fx33
  | storeRegs (x : RegIdx)                 -- Fx55
  | loadRegs (x : RegIdx)                  -- Fx65
  deriving DecidableEq, Repr

end Sys2Proof
end

