-- ==== Sys2Proof/WellFormed.lean ====
section
/-! DEFINITION. Which instructions have an encoding. The types of `x`, `y`, `kk` and `nnn` already bound those fields; what is left to check is `n`. -/

namespace Sys2Proof

/-- `n` is a 4-bit field, 0 to 15 (30_encoding.md R71, R73). -/
def rowsFit (n : Nat) : Bool := decide (n ≤ 15)

/-- The instruction can be written as an instruction word. -/
def Instr.wellFormed : Instr → Bool
  | .drw _ _ n => rowsFit n
  | .cls | .ret | .jp _ | .call _ | .seImm _ _ | .sneImm _ _ | .seReg _ _ | .ldImm _ _ | .addImm _ _ => true
  | .ldReg _ _ | .orReg _ _ | .andReg _ _ | .xorReg _ _ | .addReg _ _ | .subReg _ _ | .shr _ _ => true
  | .stub7 _ _ | .stubE _ _ | .sneReg _ _ | .ldI _ | .jpV0 _ | .rnd _ _ | .skp _ | .sknp _ => true
  | .ldVxDT _ | .ldVxK _ | .ldDTVx _ | .ldSTVx _ | .addI _ | .ldF _ | .ldB _ | .storeRegs _ | .loadRegs _ => true

end Sys2Proof
end

