-- ==== Sys2Proof/Config.lean ====
section
/-! DEFINITION. The sizes the spec fixes, the parameters it leaves open, and the free value of the model. -/

namespace Sys2Proof.Config

/-- `MEM_SIZE` (00_scope.md R5). -/
def memSize : Nat := 4096

/-- `PROG_BASE`, the program load address and the reset value of `pc` (R5, R25). -/
def progBase : Nat := 0x200

/-- `STACK_CAP` (R5). -/
def stackCap : Nat := 16

/-- The largest program that fits: 4096 - 0x200 (R5, R62). -/
def maxRom : Nat := memSize - progBase

/-- `DISPLAY_WIDTH` of the reset state. PRESUMED: the spec's default from general knowledge (R6, D1, K1), log 1.
Only `State.reset` uses it: every display buffer carries its own width, so a statement over all states holds for every W. -/
def displayWidth : Nat := 64

/-- `DISPLAY_HEIGHT` of the reset state. PRESUMED as `displayWidth`, log 1. -/
def displayHeight : Nat := 32

/-- The 80 bytes of the glyph table, five per glyph, glyph 0 first. PRESUMED: the spec's default from general knowledge
(R23, D2, K2), log 2. -/
def fontBytes : List Byte :=
  [0xF0, 0x90, 0x90, 0x90, 0xF0] ++ [0x20, 0x60, 0x20, 0x20, 0x70] ++
  [0xF0, 0x10, 0xF0, 0x80, 0xF0] ++ [0xF0, 0x10, 0xF0, 0x10, 0xF0] ++
  [0x90, 0x90, 0xF0, 0x10, 0x10] ++ [0xF0, 0x80, 0xF0, 0x10, 0xF0] ++
  [0xF0, 0x80, 0xF0, 0x90, 0xF0] ++ [0xF0, 0x10, 0x20, 0x40, 0x40] ++
  [0xF0, 0x90, 0xF0, 0x90, 0xF0] ++ [0xF0, 0x90, 0xF0, 0x10, 0xF0] ++
  [0xF0, 0x90, 0xF0, 0x90, 0x90] ++ [0xE0, 0x90, 0xE0, 0x90, 0xE0] ++
  [0xF0, 0x80, 0x80, 0x80, 0xF0] ++ [0xE0, 0x90, 0x90, 0x90, 0xE0] ++
  [0xF0, 0x80, 0xF0, 0x80, 0xF0] ++ [0xF0, 0x80, 0xF0, 0x80, 0x80]

/-- The default of the parameter `FONT` (R6), log 2. Every machine carries its own FONT (`State.font`), so a statement
over all states or over all FONT holds for any other. -/
def font : Font := ⟨fontBytes.toArray, rfl⟩

/-- The free input `rnd` (40_step_cycle.md R91, D6): the byte of the draw numbered by the argument. It has no body, so
no statement can rest on a value of it. DESIGN CHOICE of form, log 5. -/
opaque randomByte : Nat → Byte

end Sys2Proof.Config
end

