-- ==== Sys2Proof/Machine/Memory.lean ====
section
/-! DEFINITION. Memory: its canonical form, and every operation over it (20_memory.md). -/

namespace Sys2Proof.Machine

/-- Memory (R23): the bytes that differ from what an unlisted address reads as, addresses strictly rising. -/
abbrev Memory := List Host.Cell

/-- What an unlisted address reads as: the default FONT on [0, 80), 0 elsewhere, the reset contents of a machine with
that FONT (10_state.md R23, D4; log 2, log 4). A machine with another FONT lists the bytes that differ. -/
def Memory.unlisted (a : Nat) : Byte := Config.fontBytes.getD a 0

/-- The byte the list holds for `a`, else what an unlisted address reads as. -/
def Memory.read (m : Memory) (a : Nat) : Byte :=
  match m with
  | [] => Memory.unlisted a
  | c :: m' => if c.1 = a then c.2 else Memory.read m' a

/-- Put `b` at `a` in a list of cells, keeping the addresses rising; a byte equal to the unlisted one is not listed. -/
def Memory.insert (m : Memory) (a : Nat) (b : Byte) : Memory :=
  match m with
  | [] => if b = Memory.unlisted a then [] else [(a, b)]
  | c :: m' =>
    if a < c.1 then (if b = Memory.unlisted a then c :: m' else (a, b) :: c :: m')
    else if a = c.1 then (if b = Memory.unlisted a then m' else (a, b) :: m')
    else c :: Memory.insert m' a b

/-- `MemWrite(a, 1, b)` (00_scope.md R9). Every instruction checks its last address before it writes (R55), so no
write outside [0, 4096) is ever asked for; such a write changes nothing. -/
def Memory.write (m : Memory) (a : Nat) (b : Byte) : Memory :=
  if a < Config.memSize then Memory.insert m a b else m

/-- Bytes written one after the other at ascending addresses (R53). -/
def Memory.writeBytes (m : Memory) (a : Nat) : List Byte → Memory
  | [] => m
  | b :: bs => Memory.writeBytes (Memory.write m a b) (a + 1) bs

/-- `n` bytes read at ascending addresses (R53). -/
def Memory.readBytes (m : Memory) (a : Nat) : Nat → List Byte
  | 0 => []
  | n + 1 => Memory.read m a :: Memory.readBytes m (a + 1) n

/-- The addresses of a list of cells rise strictly and lie above `lo` (or at it), inside Memory, and no cell holds the
byte its address reads as when unlisted. -/
def Memory.wfFrom (lo : Nat) : Memory → Bool
  | [] => true
  | c :: m => decide (lo ≤ c.1) && decide (c.1 < Config.memSize) && decide (c.2 ≠ Memory.unlisted c.1) && Memory.wfFrom (c.1 + 1) m

/-- The canonical form of Memory. -/
def Memory.wf (m : Memory) : Bool := Memory.wfFrom 0 m

/-- `loadFont()`: the 80 bytes of FONT written at addresses 0 to 79 (R23, 70_reset_and_hazards.md R230). -/
def Memory.loadFont (m : Memory) (font : Font) : Memory := Memory.writeBytes m 0 font.toList

end Sys2Proof.Machine
end

