-- ==== Sys2Proof/Machine/State.lean ====
section
/-! DEFINITION. The state of the block, exactly the list of 10_state.md R20, with the parameters W, H and FONT a machine is built with (R39) and one counter of the model's own for the free input `rnd`; the state after reset (R40); the reasons a step could stop. -/

namespace Sys2Proof.Machine

/-- The execution state of the machine (R32). -/
inductive Mode where
  | running
  | waitingForKey
  | halted
  deriving DecidableEq, Repr

/-- The cause of the fault that halted the machine (R36, R201 to R205). -/
inductive FaultCause where
  | none
  | unimplementedOpcode
  | stackOverflow
  | stackUnderflow
  | memoryOutOfBounds
  | keyIndexOutOfRange
  deriving DecidableEq, Repr

/-- A cell `(cx, cy)` of the display buffer: column from the left, row from the top (R30). -/
abbrev Pixel := Nat × Nat

/-- The display buffer (R30): a grid with its own width W and height H, which are parameters of the machine (R6, R39;
log 1), and the cells that hold 1, in row-major order without repeats. -/
structure Display where
  width : Nat
  height : Nat
  lit : List Pixel
  deriving DecidableEq, Repr

/-- The state of the block (R20). -/
structure State where
  /-- `mem`, 4096 bytes (R23). -/
  mem : Memory
  /-- `V[0]` to `V[15]` (R21). -/
  v : Vector Byte 16
  /-- `I` (R24). -/
  i : Word
  /-- `pc` (R25). -/
  pc : Word
  /-- `stack[0]` to `stack[15]` (R26). -/
  stack : Vector Word 16
  /-- The stack pointer as the depth `sp + 1`, 0 to 16, which R27 allows (log 10). -/
  depth : Fin 17
  /-- `DT`, the delay timer (R28). -/
  dt : Byte
  /-- `ST`, the sound timer (R29). -/
  st : Byte
  /-- `disp` (R30). -/
  disp : Display
  /-- `keys[0]` to `keys[15]`, true when pressed (R31). -/
  keys : Vector Bool 16
  /-- `mode` (R32). -/
  mode : Mode
  /-- `keyReg` (R33). -/
  keyReg : RegIdx
  /-- `updateScreen` (R34). -/
  updateScreen : Bool
  /-- `faultCause` (R36). -/
  faultCause : FaultCause
  /-- `faultWord` (R37). -/
  faultWord : Word
  /-- `romSize` (R38). -/
  romSize : Nat
  /-- The parameter `FONT` this machine is built with (R6, R39; log 2), as `disp` carries W and H. Only reset reads it,
  nothing writes it; after reset the glyphs are the bytes of `mem`. -/
  font : Font
  /-- The MODEL's own field: how many draws of the free input `rnd` have been taken (R91, R39; log 5). -/
  rndCount : Nat
  deriving DecidableEq, Repr

/-- `sp` as the spec numbers it, -1 when the stack is empty (R27). -/
def State.sp (s : State) : Int := (s.depth.val : Int) - 1

/-- The state after reset of a machine with the parameters W, H and FONT (R6, R40, R230): `loadFont()` over a Memory of
reset contents, which lists nothing when FONT is the default. -/
def State.resetWith (w h : Nat) (font : Font) : State where
  mem := Memory.loadFont [] font
  v := Vector.replicate 16 0
  i := 0
  pc := BitVec.ofNat 16 Config.progBase
  stack := Vector.replicate 16 0
  depth := 0
  dt := 0
  st := 0
  disp := { width := w, height := h, lit := [] }
  keys := Vector.replicate 16 false
  mode := .running
  keyReg := 0
  updateScreen := false
  faultCause := .none
  faultWord := 0
  romSize := 0
  font := font
  rndCount := 0

/-- The machine right after reset (R40), with the default parameters (log 1, log 2). Its Memory lists nothing, which is
what loading the default FONT gives (`State.reset_eq`). -/
def State.reset : State := { State.resetWith Config.displayWidth Config.displayHeight Config.font with mem := [] }

/-- Why a step would stop with a fault. The type is empty: every fault of this hardware has an entry the spec
describes (R206), so it is a NEXT state, and a Step in Halted is the identity (R92, U8). No one raises a value of it,
so it is neither safe nor unsafe (log 8). -/
inductive Fault : Type
  deriving DecidableEq, Repr

/-- Why a step would be refused. -/
inductive Refusal where
  /-- An instruction without a meaning in the model; raised by the arms of `exec` only, and by none of them now. Safe. -/
  | notModelled (mnemonic : String)
  deriving DecidableEq, Repr

/-- What a meaning or a step answers. -/
abbrev Result := Host.Outcome State Fault Refusal

end Sys2Proof.Machine
end

