-- ==== Sys2Proof/Machine/Ops.lean ====
section
/-! DEFINITION. The named operations over the state: registers, the call stack, fault entry, the fetch, the end of an executed instruction, the key wait. -/

namespace Sys2Proof.Machine

/-! ### Registers -/

/-- `V[x]` (10_state.md R21): no register is hard-wired. -/
def State.readV (s : State) (x : RegIdx) : Byte := s.v[x]

/-- `V[x] <- b` (R21). -/
def State.writeV (s : State) (x : RegIdx) (b : Byte) : State := { s with v := s.v.set x b }

/-- VF, register 15, doubling as the flag register (R22). -/
def vf : RegIdx := 15

/-- `pc <- a`. -/
def State.setPc (s : State) (a : Word) : State := { s with pc := a }

/-- The default advance, `pc + 2` modulo 65536 (40_step_cycle.md R98). -/
def State.advance (s : State) : State := s.setPc (s.pc + 2)

/-- The advance of a skip: 4 when the condition holds, else 2 (41_control_flow.md R118). -/
def State.skipIf (s : State) (c : Bool) : State := s.setPc (if c then s.pc + 4 else s.pc + 2)

/-- `I <- a` (10_state.md R24). -/
def State.setI (s : State) (a : Word) : State := { s with i := a }

/-- `DT <- b` (R28). -/
def State.setDT (s : State) (b : Byte) : State := { s with dt := b }

/-- `ST <- b` (R29). -/
def State.setST (s : State) (b : Byte) : State := { s with st := b }

/-- Memory replaced. -/
def State.setMem (s : State) (m : Memory) : State := { s with mem := m }

/-- The display buffer replaced and `updateScreen` set, as every `00E0` and `Dxyn` does (44_display.md R171, R172). -/
def State.redraw (s : State) (d : Display) : State := { s with disp := d, updateScreen := true }

/-- Registers `V[0]` to `V[x]` replaced by the bytes at `I` to `I + x` (43_index_memory.md R155). -/
def State.loadV (s : State) (x : RegIdx) : State :=
  { s with v := Vector.ofFn fun r : RegIdx => if r ≤ x then Memory.read s.mem (s.i.toNat + r.val) else s.v[r] }

/-- One draw of the free input `rnd` is used up (40_step_cycle.md R91; log 5). -/
def State.takeRnd (s : State) : State := { s with rndCount := s.rndCount + 1 }

/-- The wait of `Fx0A` is armed (45_timers_keys.md R185). -/
def State.armWait (s : State) (x : RegIdx) : State := { s with keyReg := x, mode := .waitingForKey }

/-- `mode <- Running` (40_step_cycle.md R93). -/
def State.resume (s : State) : State := { s with mode := .running }

/-! ### The call stack (10_state.md R26, R27) -/

/-- `sp <- sp + 1; stack[sp] <- a`, none when the 16 entries are full (41_control_flow.md R112). -/
def State.push (s : State) (a : Word) : Option State :=
  if h : s.depth.val < 16 then
    some { s with stack := s.stack.set s.depth.val a, depth := ⟨s.depth.val + 1, by omega⟩ }
  else none

/-- `stack[sp]` and the state with `sp - 1`, none when the stack is empty (R110); the entry keeps its value (R26). -/
def State.pop (s : State) : Option (Word × State) :=
  if h : 0 < s.depth.val then
    some (s.stack[s.depth.val - 1], { s with depth := ⟨s.depth.val - 1, by omega⟩ })
  else none

/-! ### Faults (60_exceptions.md) -/

/-- The code of a cause, 3 bits (10_state.md R36). -/
def FaultCause.code : FaultCause → BitVec 3
  | .none => 0
  | .unimplementedOpcode => 1
  | .stackOverflow => 2
  | .stackUnderflow => 3
  | .memoryOutOfBounds => 4
  | .keyIndexOutOfRange => 5

/-- Fault entry (R206): the one operation every fault goes through. Nothing but the mode and the two fault registers
changes; pc stays at the faulting instruction. There is no return from it (R209). -/
def State.raise (s : State) (c : FaultCause) (w : Word) : State :=
  { s with mode := .halted, faultCause := c, faultWord := w }

/-- The bounds check of a data access of `n` bytes at `I` (20_memory.md R51, R55): some byte lies above 4095. With
`n = 0` no address is checked (44_display.md R172). -/
def State.spills (s : State) (n : Nat) : Bool := decide (1 ≤ n ∧ 4095 < s.i.toNat + n - 1)

/-! ### The Step (40_step_cycle.md) -/

/-- The fetch (R94): both bytes must exist; big-endian (R52). -/
def State.fetch (s : State) : Option (Byte × Byte) :=
  if 4094 < s.pc.toNat then none
  else some (Memory.read s.mem s.pc.toNat, Memory.read s.mem (s.pc.toNat + 1))

/-- A timer decremented, stopping at 0 (R97). -/
def countDown (t : Byte) : Byte := if t = 0 then 0 else t - 1

/-- The timer decrement of a Step (R97). -/
def State.tick (s : State) : State := { s with dt := countDown s.dt, st := countDown s.st }

/-- The end of the Step of an instruction: the timers are decremented, unless the instruction raised a fault (R97,
R206). The instruction has already set pc (R98; the order of the two is not observable). -/
def State.retire (s : State) : State := if s.mode = .halted then s else s.tick

/-- The smallest pressed key (R93, D7). -/
def State.pressedKey (s : State) : Option RegIdx := (List.finRange 16).find? fun k => s.keys[k]

/-- A Step in `WaitingForKey` (R93): nothing happens until a key is down; then its number is stored and the machine
runs again. -/
def State.pollKeys (s : State) : State :=
  match s.pressedKey with
  | none => s
  | some k => (s.writeV s.keyReg (BitVec.ofNat 8 k.val)).resume

/-- The two bytes of an instruction word stored where the next fetch reads them, in a machine that is running (log 12).
A pc from which nothing can be fetched is set to the program base. -/
def State.placeWord (s : State) (hi lo : Byte) : State :=
  let a : Word := if 4094 < s.pc.toNat then BitVec.ofNat 16 Config.progBase else s.pc
  { s with mem := Memory.writeBytes s.mem a.toNat [hi, lo], pc := a, mode := .running }

end Sys2Proof.Machine
end

