-- ==== Sys2Proof/Machine/Operands.lean ====
section
/-! DEFINITION. The operand forms: register operands and immediates (30_encoding.md R73), the decimal digits of `Fx33`, the glyph address of `Fx29`, the sprite of `Dxyn` and the blitter (44_display.md). -/

namespace Sys2Proof.Machine

/-- `nnn` zero-extended, as it is written to `pc` or `I` or added to `V[0]` (R73). -/
def address (nnn : Addr12) : Word := zext16 12 nnn

/-- A register's value zero-extended, as `Fx1E` and `Bnnn` add it (R73). -/
def State.wideV (s : State) (x : RegIdx) : Word := zext16 8 (s.readV x)

/-- Hundreds, tens, ones (43_index_memory.md R153). -/
def bcdDigits (b : Byte) : List Byte :=
  [BitVec.ofNat 8 (b.toNat / 100), BitVec.ofNat 8 (b.toNat / 10 % 10), BitVec.ofNat 8 (b.toNat % 10)]

/-- `V[x] * 5`, with no mask on `V[x]` (R152). -/
def glyphAddress (b : Byte) : Word := BitVec.ofNat 16 (b.toNat * 5)

/-- `V[0]` to `V[x]`, in order (R154). -/
def State.block (s : State) (x : RegIdx) : List Byte := s.v.toList.take (x.val + 1)

/-- `keys[k]` for a key number in a register, none above 15 (45_timers_keys.md R186). -/
def State.keyDown (s : State) (k : Byte) : Option Bool :=
  if h : k.toNat < 16 then some s.keys[k.toNat] else none

/-! ### The display buffer -/

/-- The cell lies within the display buffer bounds (R174). -/
def Display.inside (d : Display) (p : Pixel) : Bool := decide (p.1 < d.width ∧ p.2 < d.height)

/-- `disp[cx][cy]` (10_state.md R30). -/
def Display.pixel (d : Display) (p : Pixel) : Bool := d.lit.contains p

/-- `p` comes before `q` in row-major order. -/
def Pixel.before (p q : Pixel) : Bool := decide (p.2 < q.2 ∨ (p.2 = q.2 ∧ p.1 < q.1))

/-- A cell's bit turned over in the list of lit cells, which stays in row-major order. -/
def toggle (p : Pixel) : List Pixel → List Pixel
  | [] => [p]
  | q :: qs => if p = q then qs else if Pixel.before p q then p :: q :: qs else q :: toggle p qs

/-- `disp[tx][ty] <- old ^ 1` (R172). -/
def Display.flip (d : Display) (p : Pixel) : Display := { d with lit := toggle p d.lit }

/-- All cells 0 (R171). -/
def Display.clear (d : Display) : Display := { d with lit := [] }

/-- The list of lit cells is strictly rising in row-major order from after `p`, and inside a `w` by `h` grid. -/
def Display.wfAfter (w h : Nat) (p : Option Pixel) : List Pixel → Bool
  | [] => true
  | q :: qs =>
    (match p with | none => true | some p => Pixel.before p q) && decide (q.1 < w ∧ q.2 < h) && Display.wfAfter w h (some q) qs

/-- The canonical form of the display buffer; 1 <= W and 1 <= H (R6). -/
def Display.wf (d : Display) : Bool :=
  decide (1 ≤ d.width ∧ 1 ≤ d.height) && Display.wfAfter d.width d.height none d.lit

/-- The target cells of the set bits of one sprite row at `(px, py)`, most significant bit leftmost (R170). -/
def rowPixels (px py : Nat) (b : Byte) : List Pixel :=
  (List.range 8).filterMap fun c => if b.getLsbD (7 - c) then some (px + c, py) else none

/-- The target cells of the set bits of a sprite, rows top to bottom, columns left to right (R172). -/
def spritePixels (px py : Nat) : List Byte → List Pixel
  | [] => []
  | b :: bs => rowPixels px py b ++ spritePixels px (py + 1) bs

/-- The sprite XOR blitter (R172): each target cell inside the buffer is turned over, the others are dropped (R174).
The Boolean says whether a lit cell went out. -/
def Display.draw (d : Display) : List Pixel → Display × Bool
  | [] => (d, false)
  | p :: ps =>
    if d.inside p then
      let r := Display.draw (d.flip p) ps
      (r.1, d.pixel p || r.2)
    else Display.draw d ps

end Sys2Proof.Machine
end

