-- ==== Sys2Proof/Machine/Flags.lean ====
section
/-! DEFINITION. The flag values written to VF (10_state.md R22): carry, not borrow, the bit shifted out, pixel collision. Each is the byte 0 or 1 (42_load_alu.md R142). -/

namespace Sys2Proof.Machine

/-- A flag as the 8-bit value 0 or 1. -/
def flagByte (c : Bool) : Byte := if c then 1 else 0

/-- `8xy4`: 1 when the sum exceeds 255 (R136). -/
def carryFlag (a b : Byte) : Byte := flagByte (decide (255 < a.toNat + b.toNat))

/-- `8xy5`: 1 when no borrow arises, equality included (R137, D12). -/
def notBorrowFlag (a b : Byte) : Byte := flagByte (decide (b.toNat ≤ a.toNat))

/-- `8xy6`: the bit shifted out (R138). -/
def shiftedOutFlag (a : Byte) : Byte := a &&& 1

/-- `Dxyn`: 1 when some lit cell went out (R172). -/
def collisionFlag (hit : Bool) : Byte := flagByte hit

end Sys2Proof.Machine
end

