-- ==== Sys2Proof/Machine/ControlFlow.lean ====
section
/-! DEFINITION. Control transfer: 00EE, 1nnn, 2nnn, Bnnn, 3xkk, 4xkk, 5xy0, 9xy0 (41_control_flow.md). -/

namespace Sys2Proof.Machine

/-- `00EE` (R110): the entry popped is the address of the matching `2nnn`, to which 2 is added. -/
def execRet (s : State) : Result :=
  match s.pop with
  | none => .next (s.raise .stackUnderflow 0)
  | some (a, t) => .next (t.setPc (a + 2))

/-- `1nnn` (R111). -/
def execJp (nnn : Addr12) (s : State) : Result := .next (s.setPc (address nnn))

/-- `2nnn` (R112): what is pushed is the address of this instruction. -/
def execCall (nnn : Addr12) (s : State) : Result :=
  match s.push s.pc with
  | none => .next (s.raise .stackOverflow 0)
  | some t => .next (t.setPc (address nnn))

/-- `Bnnn` (R117): always `V[0]`; the sum is not reduced to 12 bits. -/
def execJpV0 (nnn : Addr12) (s : State) : Result := .next (s.setPc (s.wideV 0 + address nnn))

/-- `3xkk` (R113). -/
def execSeImm (x : RegIdx) (kk : Byte) (s : State) : Result := .next (s.skipIf (s.readV x == kk))

/-- `4xkk` (R114). -/
def execSneImm (x : RegIdx) (kk : Byte) (s : State) : Result := .next (s.skipIf (s.readV x != kk))

/-- `5xy0` (R115). -/
def execSeReg (x y : RegIdx) (s : State) : Result := .next (s.skipIf (s.readV x == s.readV y))

/-- `9xy0` (R116). -/
def execSneReg (x y : RegIdx) (s : State) : Result := .next (s.skipIf (s.readV x != s.readV y))

end Sys2Proof.Machine
end

