-- ==== Sys2Proof/Machine/IndexMemory.lean ====
section
/-! DEFINITION. Index register and memory transfer: Annn, Fx1E, Fx29, Fx33, Fx55, Fx65 (43_index_memory.md). -/

namespace Sys2Proof.Machine

/-- A data access of `n` bytes at `I`: `MemoryOutOfBounds` when it would spill past Memory, and nothing done; else
the state `t` (20_memory.md R55). -/
def State.within (s : State) (n : Nat) (t : State) : Result :=
  if s.spills n then .next (s.raise .memoryOutOfBounds 0) else .next t

/-- `Annn` (R150). -/
def execLdI (nnn : Addr12) (s : State) : Result := .next (s.setI (address nnn)).advance

/-- `Fx1E` (R151): modulo 65536, no flag. -/
def execAddI (x : RegIdx) (s : State) : Result := .next (s.setI (s.i + s.wideV x)).advance

/-- `Fx29` (R152). -/
def execLdF (x : RegIdx) (s : State) : Result := .next (s.setI (glyphAddress (s.readV x))).advance

/-- `Fx33` (R153). -/
def execLdB (x : RegIdx) (s : State) : Result :=
  s.within 3 (s.setMem (Memory.writeBytes s.mem s.i.toNat (bcdDigits (s.readV x)))).advance

/-- `Fx55` (R154). -/
def execStoreRegs (x : RegIdx) (s : State) : Result :=
  s.within (x.val + 1) (s.setMem (Memory.writeBytes s.mem s.i.toNat (s.block x))).advance

/-- `Fx65` (R155). -/
def execLoadRegs (x : RegIdx) (s : State) : Result := s.within (x.val + 1) (s.loadV x).advance

end Sys2Proof.Machine
end

