-- ==== Sys2Proof/Machine/Graphics.lean ====
section
/-! DEFINITION. Display: 00E0, Dxyn (44_display.md). -/

namespace Sys2Proof.Machine

/-- `00E0` (R171). -/
def execCls (s : State) : Result := .next (s.redraw s.disp.clear).advance

/-- The target cells of the sprite of `Dxyn`: the coordinates are sampled before VF is touched, and its `n` bytes are
read from `I` (R170, R172). -/
def State.sprite (s : State) (x y : RegIdx) (n : Nat) : List Pixel :=
  spritePixels (s.readV x).toNat (s.readV y).toNat (Memory.readBytes s.mem s.i.toNat n)

/-- `Dxyn` (R172): VF ends as the collision of this draw alone (D13). -/
def execDrw (x y : RegIdx) (n : Nat) (s : State) : Result :=
  let r := s.disp.draw (s.sprite x y n)
  s.within n ((s.writeV vf (collisionFlag r.2)).redraw r.1).advance

end Sys2Proof.Machine
end

