-- ==== Sys2Proof/Machine/LoadAlu.lean ====
section
/-! DEFINITION. Register load and arithmetic: 6xkk, 7xkk, 8xy0 to 8xy7, 8xyE, Cxkk (42_load_alu.md). -/

namespace Sys2Proof.Machine

/-- `V[x] <- b`, then the default advance. -/
def State.setAndAdvance (s : State) (x : RegIdx) (b : Byte) : Result := .next (s.writeV x b).advance

/-- The two statements of `8xy4`, `8xy5`, `8xy6` in their order (R142, D11): VF takes the flag, and the result of `f`
is computed from the registers as the first statement left them. -/
def State.flagThen (s : State) (flag : Byte) (x : RegIdx) (f : State → Byte) : Result :=
  (s.writeV vf flag).setAndAdvance x (f (s.writeV vf flag))

/-- The fault of the two stub patterns (R139, R140): `UnimplementedOpcode(word)` with the instruction's own word. -/
def State.unimplemented (s : State) (w : Word) : Result := .next (s.raise .unimplementedOpcode w)

/-- `6xkk` (R130). -/
def execLdImm (x : RegIdx) (kk : Byte) (s : State) : Result := s.setAndAdvance x kk

/-- `7xkk` (R131): modulo 256, no flag. -/
def execAddImm (x : RegIdx) (kk : Byte) (s : State) : Result := s.setAndAdvance x (s.readV x + kk)

/-- `8xy0` (R132). -/
def execLdReg (x y : RegIdx) (s : State) : Result := s.setAndAdvance x (s.readV y)

/-- `8xy1` (R133, D27): no flag. -/
def execOrReg (x y : RegIdx) (s : State) : Result := s.setAndAdvance x (s.readV x ||| s.readV y)

/-- `8xy2` (R134): no flag. -/
def execAndReg (x y : RegIdx) (s : State) : Result := s.setAndAdvance x (s.readV x &&& s.readV y)

/-- `8xy3` (R135): no flag. -/
def execXorReg (x y : RegIdx) (s : State) : Result := s.setAndAdvance x (s.readV x ^^^ s.readV y)

/-- `8xy4` (R136). -/
def execAddReg (x y : RegIdx) (s : State) : Result :=
  s.flagThen (carryFlag (s.readV x) (s.readV y)) x fun t => t.readV x + t.readV y

/-- `8xy5` (R137). -/
def execSubReg (x y : RegIdx) (s : State) : Result :=
  s.flagThen (notBorrowFlag (s.readV x) (s.readV y)) x fun t => t.readV x - t.readV y

/-- `8xy6` (R138): Vx in place; the y field has no effect (R81). -/
def execShr (x _y : RegIdx) (s : State) : Result :=
  s.flagThen (shiftedOutFlag (s.readV x)) x fun t => t.readV x >>> 1

/-- `8xy7` (R139). -/
def execStub7 (x y : RegIdx) (s : State) : Result := s.unimplemented (encode (.stub7 x y))

/-- `8xyE` (R140). -/
def execStubE (x y : RegIdx) (s : State) : Result := s.unimplemented (encode (.stubE x y))

/-- `Cxkk` (R141): the random byte is the free value numbered by the draws taken so far (log 5). -/
def execRnd (x : RegIdx) (kk : Byte) (s : State) : Result :=
  s.takeRnd.setAndAdvance x (Config.randomByte s.rndCount &&& kk)

end Sys2Proof.Machine
end

