-- ==== Sys2Proof/Machine/TimersKeys.lean ====
section
/-! DEFINITION. Timers and keys: Fx07, Fx15, Fx18, Ex9E, ExA1, Fx0A (45_timers_keys.md). -/

namespace Sys2Proof.Machine

/-- A skip on a key: `KeyIndexOutOfRange` when the register holds no key number (R186), else the skip when the key's
level is `want`. -/
def State.skipOnKey (s : State) (x : RegIdx) (want : Bool) : Result :=
  match s.keyDown (s.readV x) with
  | none => .next (s.raise .keyIndexOutOfRange 0)
  | some down => .next (s.skipIf (down == want))

/-- `Fx07` (R180): the value before this Step's decrement. -/
def execLdVxDT (x : RegIdx) (s : State) : Result := .next (s.writeV x s.dt).advance

/-- `Fx15` (R181): this Step's decrement follows (R97). -/
def execLdDTVx (x : RegIdx) (s : State) : Result := .next (s.setDT (s.readV x)).advance

/-- `Fx18` (R182): this Step's decrement follows (R97). -/
def execLdSTVx (x : RegIdx) (s : State) : Result := .next (s.setST (s.readV x)).advance

/-- `Ex9E` (R183). -/
def execSkp (x : RegIdx) (s : State) : Result := s.skipOnKey x true

/-- `ExA1` (R184). -/
def execSknp (x : RegIdx) (s : State) : Result := s.skipOnKey x false

/-- `Fx0A` (R185): arms the wait and advances pc; no key is read. -/
def execLdVxK (x : RegIdx) (s : State) : Result := .next (s.armWait x).advance

end Sys2Proof.Machine
end

