-- ==== Sys2Proof/Machine/Cycle.lean ====
section
/-! DEFINITION. What a Step in Running mode does with the word it fetched: decode, execute, end of the Step (40_step_cycle.md R95 to R98). -/

namespace Sys2Proof.Machine

/-- The end of the Step applied to what an instruction answers (R97). -/
def finish : Result → Result
  | .next t => .next t.retire
  | .fault r => .fault r
  | .refused r => .refused r

/-- The word of two bytes decoded and executed (R95, R96); a word that selects no row of the opcode map raises
`UnimplementedOpcode(word)` (R80, R201). -/
def State.runBytes (s : State) (hi lo : Byte) : Result :=
  match decodeBytes hi lo with
  | .error _ => .next (s.raise .unimplementedOpcode (bigEndian hi lo))
  | .ok i => finish (exec i s)

/-- A Step in Running mode (R94 to R98). -/
def State.cycle (s : State) : Result :=
  match s.fetch with
  | none => .next (s.raise .memoryOutOfBounds 0)
  | some (hi, lo) => s.runBytes hi lo

end Sys2Proof.Machine
end

