-- ==== Sys2Proof/Machine/Step.lean ====
section
/-! DEFINITION. The Step (40_step_cycle.md R90, R100) and the placing of an instruction where it fetches. -/

namespace Sys2Proof.Machine

/-- One Step (R100): nothing in Halted (R92), the key poll in WaitingForKey (R93), else one instruction. -/
def step (s : State) : Host.Outcome State Fault Refusal :=
  match s.mode with
  | .halted => .next s
  | .waitingForKey => .next s.pollKeys
  | .running => s.cycle

/-- `s` with the instruction whose bits are `w` (numbered as spec/opcode_table.json numbers them) stored where `step`
fetches its next instruction, in Running mode (log 12). -/
def State.withFetchWord (s : State) (nbits w : Nat) : State :=
  s.placeWord (highByte (tableWord nbits w)) (lowByte (tableWord nbits w))

end Sys2Proof.Machine
end

