-- ==== Sys2Proof/Machine/Report.lean ====
section
/-! DEFINITION. What a Step returns to the host: `Ok(StepOutcome)` or `Err(CpuError)` (40_step_cycle.md R90, R99; 60_exceptions.md R219). It is an output, not state: a function of the state the Step starts from (log 9). -/

namespace Sys2Proof.Machine

/-- `StepOutcome` (R99). -/
structure StepOutcome where
  displayChanged : Bool
  waitingForKey : Bool
  deriving DecidableEq, Repr

/-- `error(cause, word)` (R100, R206): the kinds of `CpuError` are the causes (R219). -/
structure CpuError where
  cause : FaultCause
  word : Word
  deriving DecidableEq, Repr

/-- What a Step returns (R90). -/
inductive StepResult where
  | ok (o : StepOutcome)
  | err (e : CpuError)
  deriving DecidableEq, Repr

/-- `00E0` and `Dxyn`, the instructions that mark `drew` (R96). -/
def drew : Instr → Bool
  | .cls | .drw _ _ _ => true
  | .ret | .jp _ | .call _ | .seImm _ _ | .sneImm _ _ | .seReg _ _ | .ldImm _ _ | .addImm _ _ => false
  | .ldReg _ _ | .orReg _ _ | .andReg _ _ | .xorReg _ _ | .addReg _ _ | .subReg _ _ | .shr _ _ => false
  | .stub7 _ _ | .stubE _ _ | .sneReg _ _ | .ldI _ | .jpV0 _ | .rnd _ _ | .skp _ | .sknp _ => false
  | .ldVxDT _ | .ldVxK _ | .ldDTVx _ | .ldSTVx _ | .addI _ | .ldF _ | .ldB _ | .storeRegs _ | .loadRegs _ => false

/-- The instruction the next Step executes, if it gets as far as executing one (R92 to R95). -/
def State.nextInstr (s : State) : Option Instr :=
  match s.mode, s.fetch with
  | .running, some (hi, lo) =>
    match decodeBytes hi lo with
    | .ok i => some i
    | .error _ => none
  | .running, none => none
  | .waitingForKey, _ => none
  | .halted, _ => none

/-- What the Step from `s` that ends in `t` returns: the latched error when the machine is halted (R92, R206), else the
outcome (R99). -/
def resultOf (s t : State) : StepResult :=
  if t.mode = .halted then .err { cause := t.faultCause, word := t.faultWord }
  else .ok { displayChanged := (s.nextInstr.map drew).getD false, waitingForKey := decide (t.mode = .waitingForKey) }

/-- What the next Step returns; none only where the model itself would stop. -/
def stepResult (s : State) : Option StepResult :=
  match step s with
  | .next t => some (resultOf s t)
  | .fault _ => none
  | .refused _ => none

end Sys2Proof.Machine
end

