-- ==== Sys2Proof/Machine/HostActions.lean ====
section
/-! DEFINITION. What the host can do between Steps: setKeyState, framebuffer, isPaused, clearUpdateScreen (40_step_cycle.md R102), reset (70_reset_and_hazards.md R230), loadProgram (20_memory.md R62), and the moves of a run (R232; log 11). -/

namespace Sys2Proof.Machine

/-- `setKeyState(k, pressed)` (R102a); none: refused, for a key number above 15 (D29). -/
def State.setKeyState (s : State) (k : Nat) (pressed : Bool) : Option State :=
  if h : k < 16 then some { s with keys := s.keys.set k pressed } else none

/-- `framebuffer()` (R102b): a view of the display buffer. -/
def State.framebuffer (s : State) (cx cy : Nat) : Bool := s.disp.pixel (cx, cy)

/-- `isPaused()` (R35, R102c). -/
def State.isPaused (s : State) : Bool := decide (s.mode = .waitingForKey)

/-- `clearUpdateScreen()` (R102d, D21). -/
def State.clearUpdateScreen (s : State) : State := { s with updateScreen := false }

/-- `reset` of a machine that has been running (R230): every piece of state takes its reset value. The parameters W,
H and FONT stay, and so does the model's own count of draws, so that no draw after a reset repeats one before it (log 5). -/
def State.hostReset (s : State) : State :=
  { State.resetWith s.disp.width s.disp.height s.font with rndCount := s.rndCount }

/-- Why the loader refuses (60_exceptions.md R210). -/
inductive LoadError where
  | romTooLarge
  deriving DecidableEq, Repr

/-- The loader-side code of a refusal (R210, D16). -/
def LoadError.code : LoadError → Nat
  | .romTooLarge => 1

/-- `loadProgram(bytes)` (R62). -/
def State.loadProgram (s : State) (bytes : List Byte) : Except LoadError State :=
  if Config.memSize < Config.progBase + bytes.length then .error .romTooLarge
  else .ok { s with mem := Memory.writeBytes s.mem Config.progBase bytes, romSize := bytes.length }

/-- The boot order (R232): reset, then one `loadProgram`; a refused load leaves the reset state. -/
def State.boot (s : State) (bytes : List Byte) : State :=
  match s.hostReset.loadProgram bytes with
  | .ok t => t
  | .error _ => s.hostReset

/-- The moves of the host (R102, R230, R232). There is no `loadProgram` outside the boot (D26). -/
inductive HostMove where
  | step
  | setKeyState (k : Nat) (pressed : Bool)
  | clearUpdateScreen
  | reset
  | boot (bytes : List Byte)
  deriving DecidableEq, Repr

/-- The state after a move; a refused move changes nothing. -/
def State.move (s : State) : HostMove → State
  | .step =>
    match Sys2Proof.Machine.step s with
    | .next t => t
    | .fault _ => s
    | .refused _ => s
  | .setKeyState k pressed => (s.setKeyState k pressed).getD s
  | .clearUpdateScreen => s.clearUpdateScreen
  | .reset => s.hostReset
  | .boot bytes => s.boot bytes

/-- A run: moves one after the other (40_step_cycle.md R103). -/
def State.moves (s : State) (ms : List HostMove) : State := ms.foldl State.move s

end Sys2Proof.Machine
end

