-- ==== Sys2Proof/Safety.lean ====
section
/-! DEFINITION. The terms claims use: the parts of the state, what it means that only some of them change, and the invariant of every reachable state. -/

namespace Sys2Proof.Machine

/-- A piece of the state that can be looked at by itself: each register, flag, memory byte and display cell. -/
inductive Part where
  | v (x : RegIdx)
  | i
  | pc
  | stack (k : RegIdx)
  | sp
  | dt
  | st
  | mem (a : Nat)
  | pixel (p : Pixel)
  | dispSize
  | key (k : RegIdx)
  | mode
  | keyReg
  | updateScreen
  | faultCause
  | faultWord
  | romSize
  | font
  | rndCount
  deriving DecidableEq, Repr

/-- The part `p` of the state is the same in `s` and `t`. -/
def Same (s t : State) : Part → Prop
  | .v x => t.readV x = s.readV x
  | .i => t.i = s.i
  | .pc => t.pc = s.pc
  | .stack k => t.stack[k] = s.stack[k]
  | .sp => t.depth = s.depth
  | .dt => t.dt = s.dt
  | .st => t.st = s.st
  | .mem a => Memory.read t.mem a = Memory.read s.mem a
  | .pixel p => t.disp.pixel p = s.disp.pixel p
  | .dispSize => t.disp.width = s.disp.width ∧ t.disp.height = s.disp.height
  | .key k => t.keys[k] = s.keys[k]
  | .mode => t.mode = s.mode
  | .keyReg => t.keyReg = s.keyReg
  | .updateScreen => t.updateScreen = s.updateScreen
  | .faultCause => t.faultCause = s.faultCause
  | .faultWord => t.faultWord = s.faultWord
  | .romSize => t.romSize = s.romSize
  | .font => t.font = s.font
  | .rndCount => t.rndCount = s.rndCount

/-- From `s` to `t` nothing changes but, at most, the parts `may` names (00_scope.md R11). -/
def OnlyChanges (s t : State) (may : Part → Prop) : Prop := ∀ p, ¬ may p → Same s t p

/-- The invariant of every reachable state. -/
structure Inv (s : State) : Prop where
  /-- Memory is in its canonical form, inside [0, 4096). -/
  mem_wf : Memory.wf s.mem = true
  /-- The display buffer is in its canonical form, its lit cells inside the grid (R30, R6). -/
  disp_wf : s.disp.wf = true
  /-- `faultCause` is nonzero exactly when the machine is halted (R36). -/
  cause_iff : s.faultCause ≠ .none ↔ s.mode = .halted
  /-- `faultWord` is 0 but for `UnimplementedOpcode` (R37). -/
  word_zero : s.faultCause ≠ .unimplementedOpcode → s.faultWord = 0
  /-- Every stack entry is a pc an instruction was fetched from (R110). -/
  stack_le : ∀ k : RegIdx, (s.stack[k]).toNat ≤ 4094
  /-- pc never passes the largest target, that of `Bnnn`, so its arithmetic never wraps (R25). -/
  pc_le : s.pc.toNat ≤ 0x10FE
  /-- The recorded program length (R38). -/
  rom_le : s.romSize ≤ Config.maxRom

/-- A state that a list of host moves brings about from a reset machine, whatever its W, H and FONT (R102, R103; which
moves there are: log 11). -/
def Reachable (s : State) : Prop :=
  ∃ (w h : Nat) (font : Font) (ms : List HostMove), 1 ≤ w ∧ 1 ≤ h ∧ s = (State.resetWith w h font).moves ms

end Sys2Proof.Machine
end

