-- ==== Sys2Proof/Certificates/Slice0/Obligations.lean ====
section
/-! DEFINITION. The statements for the provers, each a numbered rule of the spec or a consequence of several, and the words they share. -/

namespace Sys2Proof.Claims

open Sys2Proof.Machine

/-- The state of fault entry, written out (60_exceptions.md R206). -/
def halts (s : State) (c : FaultCause) (w : Word) : State := { s with mode := .halted, faultCause := c, faultWord := w }

/-- The word at pc, big-endian (R52, R94). -/
def wordAtPc (s : State) : Word := bigEndian (Memory.read s.mem s.pc.toNat) (Memory.read s.mem (s.pc.toNat + 1))

/-- The machine runs, both bytes at pc exist, and they are the instruction `i`. -/
def InstrAt (s : State) (i : Instr) : Prop :=
  s.mode = .running ∧ s.pc.toNat ≤ 4094 ∧ decode (wordAtPc s) = .ok i

/-- A data access of `n` bytes at `I` stays inside Memory (R51, R55); an empty one always does (R172). -/
def Fits (s : State) (n : Nat) : Prop := n = 0 ∨ s.i.toNat + n ≤ 4096

/-- The illegal set of 30_encoding.md R80, as it lists it. -/
def Illegal (w : Word) : Prop :=
  (w.toNat / 4096 = 0 ∧ w ≠ 0x00E0 ∧ w ≠ 0x00EE) ∨
  ((w.toNat / 4096 = 5 ∨ w.toNat / 4096 = 9) ∧ w.toNat % 16 ≠ 0) ∨
  (w.toNat / 4096 = 8 ∧ 7 ≤ w.toNat % 16) ∨
  (w.toNat / 4096 = 14 ∧ w.toNat % 256 ∉ [0x9E, 0xA1]) ∨
  (w.toNat / 4096 = 15 ∧ w.toNat % 256 ∉ [0x07, 0x0A, 0x15, 0x18, 0x1E, 0x29, 0x33, 0x55, 0x65])

/-- pc after a skip whose condition is `c` (R118). -/
def afterSkip (s : State) (c : Prop) [Decidable c] : Word := if c then s.pc + 4 else s.pc + 2

/-- The key whose number is the value of `V[x]`, false when there is none (R186). -/
def keyOf (s : State) (x : RegIdx) : Bool := s.keys.toList.getD (s.readV x).toNat false

/-- `npc`, by the table of 40_step_cycle.md R98. -/
def npc (s : State) : Instr → Word
  | .jp nnn | .call nnn => BitVec.ofNat 16 nnn.toNat
  | .jpV0 nnn => BitVec.ofNat 16 ((s.readV 0).toNat + nnn.toNat)
  | .ret => s.stack.toList.getD (s.depth.val - 1) 0 + 2
  | .seImm x kk => afterSkip s (s.readV x = kk)
  | .sneImm x kk => afterSkip s (s.readV x ≠ kk)
  | .seReg x y => afterSkip s (s.readV x = s.readV y)
  | .sneReg x y => afterSkip s (s.readV x ≠ s.readV y)
  | .skp x => afterSkip s (keyOf s x = true)
  | .sknp x => afterSkip s (keyOf s x = false)
  | .cls | .ldImm _ _ | .addImm _ _ | .ldReg _ _ | .orReg _ _ | .andReg _ _ | .xorReg _ _ | .addReg _ _ => s.pc + 2
  | .subReg _ _ | .shr _ _ | .stub7 _ _ | .stubE _ _ | .ldI _ | .rnd _ _ | .drw _ _ _ | .ldVxDT _ => s.pc + 2
  | .ldVxK _ | .ldDTVx _ | .ldSTVx _ | .addI _ | .ldF _ | .ldB _ | .storeRegs _ | .loadRegs _ => s.pc + 2

/-- The one fault an instruction can raise, by 60_exceptions.md R208; the stubs' is raised at decode. -/
def mayRaise : Instr → Option FaultCause
  | .call _ => some .stackOverflow
  | .ret => some .stackUnderflow
  | .drw _ _ _ | .ldB _ | .storeRegs _ | .loadRegs _ => some .memoryOutOfBounds
  | .skp _ | .sknp _ => some .keyIndexOutOfRange
  | .stub7 _ _ | .stubE _ _ => some .unimplementedOpcode
  | .cls | .jp _ | .seImm _ _ | .sneImm _ _ | .seReg _ _ | .ldImm _ _ | .addImm _ _ | .ldReg _ _ => none
  | .orReg _ _ | .andReg _ _ | .xorReg _ _ | .addReg _ _ | .subReg _ _ | .shr _ _ | .sneReg _ _ | .ldI _ => none
  | .jpV0 _ | .rnd _ _ | .ldVxDT _ | .ldVxK _ | .ldDTVx _ | .ldSTVx _ | .addI _ | .ldF _ => none

/-- The parts an instruction that completes may write (00_scope.md R11 applied to the instruction rules). -/
def writes (s : State) : Instr → Part → Prop
  | .cls, p => p = .pc ∨ p = .updateScreen ∨ ∃ q, p = .pixel q
  | .ret, p => p = .pc ∨ p = .sp
  | .call _, p => p = .pc ∨ p = .sp ∨ ∃ k : RegIdx, k.val = s.depth.val ∧ p = .stack k
  | .jp _, p | .jpV0 _, p | .seImm _ _, p | .sneImm _ _, p | .seReg _ _, p | .sneReg _ _, p | .skp _, p | .sknp _, p => p = .pc
  | .ldImm x _, p | .addImm x _, p | .ldReg x _, p | .orReg x _, p | .andReg x _, p | .xorReg x _, p | .ldVxDT x, p => p = .pc ∨ p = .v x
  | .addReg x _, p | .subReg x _, p | .shr x _, p => p = .pc ∨ p = .v x ∨ p = .v 15
  | .stub7 _ _, _ | .stubE _ _, _ => False
  | .ldI _, p | .addI _, p | .ldF _, p => p = .pc ∨ p = .i
  | .rnd x _, p => p = .pc ∨ p = .v x ∨ p = .rndCount
  | .drw _ _ _, p => p = .pc ∨ p = .v 15 ∨ p = .updateScreen ∨ ∃ q, p = .pixel q
  | .ldVxK _, p => p = .pc ∨ p = .keyReg ∨ p = .mode
  | .ldDTVx _, p => p = .pc ∨ p = .dt
  | .ldSTVx _, p => p = .pc ∨ p = .st
  | .ldB _, p => p = .pc ∨ ∃ k < 3, p = .mem (s.i.toNat + k)
  | .storeRegs x, p => p = .pc ∨ ∃ k ≤ x.val, p = .mem (s.i.toNat + k)
  | .loadRegs x, p => p = .pc ∨ ∃ r ≤ x, p = .v r

/-- What fault entry writes (R206). -/
def faultParts (p : Part) : Prop := p = .mode ∨ p = .faultCause ∨ p = .faultWord

/-- The cell `p` is the target of a set bit of the sprite of `Dxyn` and lies inside the buffer (44_display.md R170, R174). -/
def covered (s : State) (x y : RegIdx) (n : Nat) (p : Pixel) : Bool :=
  decide (p.1 < s.disp.width ∧ p.2 < s.disp.height) &&
    decide ((s.readV x).toNat ≤ p.1 ∧ p.1 < (s.readV x).toNat + 8 ∧ (s.readV y).toNat ≤ p.2 ∧ p.2 < (s.readV y).toNat + n) &&
      (Memory.read s.mem (s.i.toNat + (p.2 - (s.readV y).toNat))).getLsbD (7 - (p.1 - (s.readV x).toNat))

/-- `n` Steps from `s` to `t`, each of them executing an instruction to completion that sets neither timer. -/
inductive TimedSteps : Nat → State → State → Prop where
  | zero (s : State) : TimedSteps 0 s s
  | succ {n : Nat} {s t u : State} (i : Instr) (h : InstrAt s i) (hdt : ∀ x, i ≠ .ldDTVx x) (hst : ∀ x, i ≠ .ldSTVx x)
      (hs : step s = .next t) (ht : t.mode ≠ .halted) (hu : TimedSteps n t u) : TimedSteps (n + 1) s u

end Sys2Proof.Claims

open Sys2Proof Sys2Proof.Machine Sys2Proof.Claims

/-! ### Encoding -/

/-- Every well-formed instruction is read back from its word (30_encoding.md sections 1 to 3). -/
def Obligations.DecodeOfEncodeIsInstruction : Prop :=
  ∀ i : Instr, i.wellFormed = true → decode (encode i) = .ok i

/-- Every word that decodes is the word of the well-formed instruction it decodes to: each word has one meaning. -/
def Obligations.EncodeOfDecodeIsWord : Prop :=
  ∀ (w : Word) (i : Instr), decode w = .ok i → i.wellFormed = true ∧ encode i = w

/-- The decoder selects an instruction exactly by the masks and matches of the opcode map, and refuses a word exactly
when no row matches it (30_encoding.md section 3). -/
def Obligations.DecodeFollowsOpcodeMap : Prop :=
  ∀ w : Word,
    (∀ r ∈ opcodeMap, w &&& r.mask = r.value ↔ ∃ i, decode w = .ok i ∧ i.row = r) ∧
    ((∀ r ∈ opcodeMap, w &&& r.mask ≠ r.value) ↔ ∃ e, decode w = .error e)

/-- A few words written out from the spec's encodings (95_test_vectors.md section 2.6). -/
def Obligations.SampleWordsDecode : Prop :=
  decode 0xD012 = .ok (.drw 0 1 2) ∧ decode 0x8F14 = .ok (.addReg 15 1) ∧ decode 0xA2EA = .ok (.ldI 0x2EA) ∧
    decode 0x6FAB = .ok (.ldImm 15 0xAB) ∧ decode 0xE49E = .ok (.skp 4) ∧ decode 0xB300 = .ok (.jpV0 0x300)

/-- R80: the illegal set is as listed, and executing a word of it is `UnimplementedOpcode(word)`; every other word is
an instruction, and no Step that executes it raises that fault. -/
def Obligations.IllegalWordFaults : Prop :=
  ∀ s : State, s.mode = .running → s.pc.toNat ≤ 4094 →
    (Illegal (wordAtPc s) → step s = .next (halts s .unimplementedOpcode (wordAtPc s))) ∧
    (¬ Illegal (wordAtPc s) →
      ∃ i t, decode (wordAtPc s) = .ok i ∧ step s = .next t ∧ (t.mode = .halted → t.faultCause ≠ .unimplementedOpcode))

/-! ### The Step -/

/-- A Step in Running mode is the decoded instruction and then the timer decrement, which a fault leaves out
(40_step_cycle.md sections 4 and 5). -/
def Obligations.StepRunsDecodedInstruction : Prop :=
  ∀ (s : State) (i : Instr), InstrAt s i →
    ∃ u, exec i s = .next u ∧
      step s = .next (if u.mode = .halted then u
        else { u with dt := if u.dt = 0 then 0 else u.dt - 1, st := if u.st = 0 then 0 else u.st - 1 })

/-- R94: the fetch faults exactly when the second byte of the word would lie outside Memory, and else reads the two
bytes at pc, the first the high one. -/
def Obligations.FetchReadsTwoBytes : Prop :=
  ∀ s : State, s.mode = .running →
    (4094 < s.pc.toNat → step s = .next (halts s .memoryOutOfBounds 0)) ∧
    (s.pc.toNat ≤ 4094 →
      (∀ e, decode (Memory.read s.mem s.pc.toNat ++ Memory.read s.mem (s.pc.toNat + 1)) = .error e →
        step s = .next (halts s .unimplementedOpcode (Memory.read s.mem s.pc.toNat ++ Memory.read s.mem (s.pc.toNat + 1)))) ∧
      (∀ i, decode (Memory.read s.mem s.pc.toNat ++ Memory.read s.mem (s.pc.toNat + 1)) = .ok i →
        ∃ u, exec i s = .next u ∧ step s = .next u.retire))

/-- R92: in Halted nothing changes, and (the spec's decision D18) the latched error is returned. -/
def Obligations.HaltedStepIsIdentity : Prop :=
  ∀ s : State, s.mode = .halted →
    step s = .next s ∧ stepResult s = some (.err { cause := s.faultCause, word := s.faultWord })

/-- R93 (the smallest key is the spec's decision D7): the wait ends with the number of the smallest pressed key in
`V[keyReg]`; without a key nothing changes. -/
def Obligations.WaitStoresSmallestKey : Prop :=
  ∀ s : State, s.mode = .waitingForKey →
    ((∀ k : RegIdx, s.keys[k] = false) →
      step s = .next s ∧ stepResult s = some (.ok { displayChanged := false, waitingForKey := true })) ∧
    (∀ k : RegIdx, s.keys[k] = true → (∀ j < k, s.keys[j] = false) →
      ∃ t, step s = .next t ∧ t.readV s.keyReg = BitVec.ofNat 8 k.val ∧ t.mode = .running ∧
        OnlyChanges s t (fun p => p = .v s.keyReg ∨ p = .mode) ∧
        stepResult s = some (.ok { displayChanged := false, waitingForKey := false }))

/-- R97: the timers go down by one, stopping at 0, in exactly the Steps that execute an instruction to completion (the
spec's decision D8), and after the instruction's own writes (its decision D9). -/
def Obligations.TimersDecrementPerInstruction : Prop :=
  (∀ (s : State) (i : Instr), InstrAt s i →
    ∃ u t, exec i s = .next u ∧ step s = .next t ∧
      (u.mode ≠ .halted → t.dt.toNat = u.dt.toNat - 1 ∧ t.st.toNat = u.st.toNat - 1)) ∧
  (∀ s t : State, step s = .next t → s.mode ≠ .running ∨ t.mode = .halted → t.dt = s.dt ∧ t.st = s.st)

/-- R98: pc after an instruction is the table's `npc`; a Step that faults leaves pc where it was. -/
def Obligations.PcFollowsNpcTable : Prop :=
  (∀ (s : State) (i : Instr), InstrAt s i → ∃ t, step s = .next t ∧ (t.mode ≠ .halted → t.pc = npc s i)) ∧
  (∀ s t : State, step s = .next t → t.mode = .halted → t.pc = s.pc)

/-- R99: what a Step that did not fault reports (that `displayChanged` is about this Step alone is the spec's decision D21). -/
def Obligations.StepOutcomeReports : Prop :=
  ∀ s t : State, step s = .next t → t.mode ≠ .halted →
    ∃ o, stepResult s = some (.ok o) ∧ (o.waitingForKey = true ↔ t.mode = .waitingForKey) ∧
      (o.displayChanged = true ↔ ∃ i, InstrAt s i ∧ (i = .cls ∨ ∃ x y n, i = .drw x y n))

/-- R101: every Step is one row of the mode table. -/
def Obligations.ModeTransitionTable : Prop :=
  ∀ s : State, ∃ t, step s = .next t ∧
    (s.mode = .running →
      (t.mode = .running ∧ ∃ i u, InstrAt s i ∧ (∀ x, i ≠ .ldVxK x) ∧ exec i s = .next u ∧ t = u.tick) ∨
      (t.mode = .waitingForKey ∧ ∃ x, InstrAt s (.ldVxK x) ∧ t.keyReg = x ∧ t.pc = s.pc + 2 ∧
        t.dt.toNat = s.dt.toNat - 1 ∧ t.st.toNat = s.st.toNat - 1 ∧
        OnlyChanges s t (fun p => p = .pc ∨ p = .keyReg ∨ p = .mode ∨ p = .dt ∨ p = .st)) ∨
      (t.mode = .halted ∧ OnlyChanges s t faultParts)) ∧
    (s.mode = .waitingForKey →
      ((∀ k : RegIdx, s.keys[k] = false) → t = s) ∧
      ((∃ k : RegIdx, s.keys[k] = true) →
        t.mode = .running ∧ (∃ k : RegIdx, s.keys[k] = true ∧ t.readV s.keyReg = BitVec.ofNat 8 k.val) ∧
          OnlyChanges s t (fun p => p = .v s.keyReg ∨ p = .mode))) ∧
    (s.mode = .halted → t = s)

/-- R206: fault entry writes the mode and the two fault registers and nothing else, and the error is returned (halting
on every fault, and `faultWord` 0 but for an opcode, are the spec's decision D16). -/
def Obligations.FaultEntryWritesOnlyFaultRegisters : Prop :=
  ∀ s t : State, s.mode = .running → step s = .next t → t.mode = .halted →
    OnlyChanges s t faultParts ∧ t.faultCause ≠ .none ∧
      t.faultWord = (if t.faultCause = .unimplementedOpcode then wordAtPc s else 0) ∧
      stepResult s = some (.err { cause := t.faultCause, word := t.faultWord })

/-- R208: the fetch's fault comes first, then the decoder's, then the one the instruction can raise (the spec's decision
D17; the key fault is its D15). -/
def Obligations.FaultPriorityOrder : Prop :=
  ∀ s t : State, s.mode = .running → step s = .next t →
    (4094 < s.pc.toNat → t.mode = .halted ∧ t.faultCause = .memoryOutOfBounds) ∧
    (s.pc.toNat ≤ 4094 → Illegal (wordAtPc s) → t.mode = .halted ∧ t.faultCause = .unimplementedOpcode) ∧
    (∀ i, InstrAt s i → t.mode = .halted → some t.faultCause = mayRaise i)

/-- R209: no Step and no ordinary action of the host leaves Halted or touches the latched fault; reset clears it. -/
def Obligations.HaltedIsTerminal : Prop :=
  ∀ s : State, s.mode = .halted →
    (∀ m : HostMove, m = .step ∨ (∃ k b, m = .setKeyState k b) ∨ m = .clearUpdateScreen →
      (s.move m).mode = .halted ∧ (s.move m).faultCause = s.faultCause ∧ (s.move m).faultWord = s.faultWord) ∧
    s.move .step = s ∧
    (s.move .reset).mode = .running ∧ (s.move .reset).faultCause = .none ∧ (s.move .reset).faultWord = 0

/-- Every Step of every state ends in a next state: nothing blocks and nothing is refused (40_step_cycle.md section 1). -/
def Obligations.StepAlwaysAnswers : Prop := ∀ s : State, ∃ t, step s = .next t

/-! ### Invariants -/

/-- The invariant holds after reset, for every W, H and FONT. -/
def Obligations.ResetMeetsInvariant : Prop :=
  Inv State.reset ∧ ∀ (w h : Nat) (font : Font), 1 ≤ w → 1 ≤ h → Inv (State.resetWith w h font)

/-- Every Step keeps the invariant. -/
def Obligations.StepKeepsInvariant : Prop := ∀ s t : State, Inv s → step s = .next t → Inv t

/-- Every state that the host's moves bring about from a reset machine of any W, H and FONT meets the invariant: the
canonical forms, the fault registers, the bounds on pc and on the stack entries. Which moves there are is the MODEL's
reading (log 11: DEDUCED, and DESIGN CHOICE that `loadProgram` is a move only within boot, the spec's decision D26; that
reset may be repeated is its D5): a host that loads a program later brings about states this says nothing of. -/
def Obligations.ReachableStatesMeetInvariant : Prop := ∀ s : State, Reachable s → Inv s

/-! ### Reset and the host -/

/-- What the source itself fixes of the reset state: pc, the empty stack, the font's place (70_reset_and_hazards.md
section 1), for every value of the parameters W, H and FONT. `State.reset` is the machine of the defaults (log 1, log 2). -/
def Obligations.ResetSourceValues : Prop :=
  State.reset = State.resetWith 64 32 Config.font ∧
    ∀ (w h : Nat) (font : Font),
      (State.resetWith w h font).pc = 0x200 ∧ (State.resetWith w h font).sp = -1 ∧
        (State.resetWith w h font).disp.width = w ∧ (State.resetWith w h font).disp.height = h ∧
        (State.resetWith w h font).font = font ∧
        ∀ a : Fin 80, Memory.read (State.resetWith w h font).mem a.val = font[a]

/-- The rest of the reset table, for every W, H and FONT: values the spec decided (its D3, D4, D16; log 3 and log 4), not
the source's. -/
def Obligations.ResetDecidedValues : Prop :=
  ∀ (w h : Nat) (font : Font) (s : State), s = State.resetWith w h font →
    (∀ x : RegIdx, s.readV x = 0) ∧ s.i = 0 ∧ (∀ k : RegIdx, s.stack[k] = 0) ∧ s.dt = 0 ∧ s.st = 0 ∧
      (∀ p, s.disp.pixel p = false) ∧ (∀ k : RegIdx, s.keys[k] = false) ∧ s.mode = .running ∧ s.keyReg = 0 ∧
      s.updateScreen = false ∧ s.faultCause.code = 0 ∧ s.faultWord = 0 ∧ s.romSize = 0 ∧
      ∀ a, 80 ≤ a → Memory.read s.mem a = 0

/-- R62: a program that fits is copied to 0x200 and its length recorded; one that does not is refused. -/
def Obligations.LoadProgramCopiesOrRefuses : Prop :=
  ∀ (s : State) (bytes : List Byte), Memory.wf s.mem = true →
    (4096 < 0x200 + bytes.length → s.loadProgram bytes = .error .romTooLarge) ∧
    (0x200 + bytes.length ≤ 4096 →
      ∃ t, s.loadProgram bytes = .ok t ∧ t.romSize = bytes.length ∧
        (∀ k, ∀ h : k < bytes.length, Memory.read t.mem (0x200 + k) = bytes[k]) ∧
        OnlyChanges s t (fun p => p = .romSize ∨ ∃ k < bytes.length, p = .mem (0x200 + k)))

/-- A machine stepped with nothing loaded faults at once with `UnimplementedOpcode(0x0000)` (70_reset_and_hazards.md
section 2; it rests on the zero-filled Memory of log 4), whatever its W, H and FONT. -/
def Obligations.UnloadedMachineFaults : Prop :=
  ∀ (w h : Nat) (font : Font),
    step (State.resetWith w h font) = .next (halts (State.resetWith w h font) .unimplementedOpcode 0)

/-- R102: what the host may do between Steps, and that it does nothing else (the refusal of a key number above 15 is the
spec's decision D29, the clearing of `updateScreen` its D21). -/
def Obligations.HostActionsBetweenSteps : Prop :=
  ∀ (s : State) (k : Nat) (b : Bool),
    (15 < k → s.setKeyState k b = none ∧ s.move (.setKeyState k b) = s) ∧
    (∀ h : k < 16, ∃ t, s.setKeyState k b = some t ∧ s.move (.setKeyState k b) = t ∧
      t.keys[(⟨k, h⟩ : RegIdx)] = b ∧ OnlyChanges s t (fun p => p = .key ⟨k, h⟩)) ∧
    (∀ cx cy, s.framebuffer cx cy = s.disp.pixel (cx, cy)) ∧
    (s.isPaused = true ↔ s.mode = .waitingForKey) ∧
    (s.move .clearUpdateScreen).updateScreen = false ∧
    OnlyChanges s (s.move .clearUpdateScreen) (fun p => p = .updateScreen)

/-- The convention of log 12: a word placed for the next Step is what that Step fetches and runs. -/
def Obligations.PlacedWordIsExecuted : Prop :=
  ∀ (s : State) (w : Word) (i : Instr), Memory.wf s.mem = true → decodeTableWord 16 w.toNat = some i →
    decode w = .ok i ∧ InstrAt (s.withFetchWord 16 w.toNat) i

/-! ### Control transfer -/

/-- R110 (that the popped entry keeps its value is the spec's decision D23). -/
def Obligations.ReturnPopsCallAddress : Prop :=
  ∀ s : State,
    (s.sp = -1 → exec .ret s = .next (halts s .stackUnderflow 0)) ∧
    (∀ k : RegIdx, s.sp = (k.val : Int) →
      ∃ t, exec .ret s = .next t ∧ t.pc = s.stack[k] + 2 ∧ t.sp = s.sp - 1 ∧ OnlyChanges s t (fun p => p = .pc ∨ p = .sp))

/-- R111 and R117. -/
def Obligations.JumpsSetPc : Prop :=
  ∀ (s : State) (nnn : Addr12),
    (∃ t, exec (.jp nnn) s = .next t ∧ t.pc.toNat = nnn.toNat ∧ OnlyChanges s t (fun p => p = .pc)) ∧
    (∃ t, exec (.jpV0 nnn) s = .next t ∧ t.pc.toNat = (s.readV 0).toNat + nnn.toNat ∧ OnlyChanges s t (fun p => p = .pc))

/-- R112. -/
def Obligations.CallPushesOwnAddress : Prop :=
  ∀ (s : State) (nnn : Addr12),
    (s.sp = 15 → exec (.call nnn) s = .next (halts s .stackOverflow 0)) ∧
    (∀ k : RegIdx, s.sp + 1 = (k.val : Int) →
      ∃ t, exec (.call nnn) s = .next t ∧ t.sp = s.sp + 1 ∧ t.stack[k] = s.pc ∧ t.pc.toNat = nnn.toNat ∧
        OnlyChanges s t (fun p => p = .pc ∨ p = .sp ∨ p = .stack k))

/-- R113, R114, R115, R116. -/
def Obligations.SkipsTestRegisters : Prop :=
  ∀ (s : State) (x y : RegIdx) (kk : Byte),
    (∃ t, exec (.seImm x kk) s = .next t ∧ t.pc = afterSkip s (s.readV x = kk) ∧ OnlyChanges s t (fun p => p = .pc)) ∧
    (∃ t, exec (.sneImm x kk) s = .next t ∧ t.pc = afterSkip s (s.readV x ≠ kk) ∧ OnlyChanges s t (fun p => p = .pc)) ∧
    (∃ t, exec (.seReg x y) s = .next t ∧ t.pc = afterSkip s (s.readV x = s.readV y) ∧ OnlyChanges s t (fun p => p = .pc)) ∧
    (∃ t, exec (.sneReg x y) s = .next t ∧ t.pc = afterSkip s (s.readV x ≠ s.readV y) ∧ OnlyChanges s t (fun p => p = .pc))

/-- Call/return symmetry (95_test_vectors.md S3): a return that finds the stack as a call left it goes to the
instruction after the call and leaves the stack as deep as before. -/
def Obligations.CallReturnSymmetry : Prop :=
  ∀ (s u : State) (nnn : Addr12), s.sp < 15 →
    ∃ t, exec (.call nnn) s = .next t ∧
      (u.stack = t.stack → u.depth = t.depth → ∃ r, exec .ret u = .next r ∧ r.pc = s.pc + 2 ∧ r.depth = s.depth)

/-! ### Load and arithmetic -/

/-- R130 and R132. -/
def Obligations.LoadsSetRegister : Prop :=
  ∀ (s : State) (x y : RegIdx) (kk : Byte),
    (∃ t, exec (.ldImm x kk) s = .next t ∧ t.readV x = kk ∧ t.pc = s.pc + 2 ∧ OnlyChanges s t (fun p => p = .pc ∨ p = .v x)) ∧
    (∃ t, exec (.ldReg x y) s = .next t ∧ t.readV x = s.readV y ∧ t.pc = s.pc + 2 ∧ OnlyChanges s t (fun p => p = .pc ∨ p = .v x))

/-- R131: the carry is lost and VF is written only as the destination (the spec's decision D14). -/
def Obligations.AddImmediateWraps : Prop :=
  ∀ (s : State) (x : RegIdx) (kk : Byte),
    ∃ t, exec (.addImm x kk) s = .next t ∧ (t.readV x).toNat = ((s.readV x).toNat + kk.toNat) % 256 ∧ t.pc = s.pc + 2 ∧
      OnlyChanges s t (fun p => p = .pc ∨ p = .v x)

/-- R133, R134, R135, bit by bit (that VF is kept and that y is the second operand are the spec's decisions D14 and D27). -/
def Obligations.LogicalOperations : Prop :=
  ∀ (s : State) (x y : RegIdx),
    (∃ t, exec (.orReg x y) s = .next t ∧
      (∀ b, (t.readV x).getLsbD b = ((s.readV x).getLsbD b || (s.readV y).getLsbD b)) ∧ t.pc = s.pc + 2 ∧
      OnlyChanges s t (fun p => p = .pc ∨ p = .v x)) ∧
    (∃ t, exec (.andReg x y) s = .next t ∧
      (∀ b, (t.readV x).getLsbD b = ((s.readV x).getLsbD b && (s.readV y).getLsbD b)) ∧ t.pc = s.pc + 2 ∧
      OnlyChanges s t (fun p => p = .pc ∨ p = .v x)) ∧
    (∃ t, exec (.xorReg x y) s = .next t ∧
      (∀ b, (t.readV x).getLsbD b = ((s.readV x).getLsbD b ^^ (s.readV y).getLsbD b)) ∧ t.pc = s.pc + 2 ∧
      OnlyChanges s t (fun p => p = .pc ∨ p = .v x))

/-- R136, with its corner cases (the order of the two statements is the spec's decision D11). -/
def Obligations.AddRegisterSetsCarry : Prop :=
  ∀ (s : State) (x y : RegIdx), ∃ t, exec (.addReg x y) s = .next t ∧ t.pc = s.pc + 2 ∧
    OnlyChanges s t (fun p => p = .pc ∨ p = .v x ∨ p = .v 15) ∧
    ∃ c : Nat, c = (if 255 < (s.readV x).toNat + (s.readV y).toNat then 1 else 0) ∧
      (x ≠ 15 → (t.readV 15).toNat = c) ∧
      (x ≠ 15 → y ≠ 15 → (t.readV x).toNat = ((s.readV x).toNat + (s.readV y).toNat) % 256) ∧
      (x ≠ 15 → y = 15 → (t.readV x).toNat = ((s.readV x).toNat + c) % 256) ∧
      (x = 15 → y ≠ 15 → (t.readV 15).toNat = (c + (s.readV y).toNat) % 256) ∧
      (x = 15 → y = 15 → (t.readV 15).toNat = 2 * c)

/-- R137, with its corner cases (equality is D12, the order of the two statements D11, decisions of the spec). -/
def Obligations.SubRegisterSetsNotBorrow : Prop :=
  ∀ (s : State) (x y : RegIdx), ∃ t, exec (.subReg x y) s = .next t ∧ t.pc = s.pc + 2 ∧
    OnlyChanges s t (fun p => p = .pc ∨ p = .v x ∨ p = .v 15) ∧
    ∃ c : Nat, c = (if (s.readV y).toNat ≤ (s.readV x).toNat then 1 else 0) ∧
      (x ≠ 15 → (t.readV 15).toNat = c) ∧
      (x ≠ 15 → y ≠ 15 → ((t.readV x).toNat : Int) = ((s.readV x).toNat - (s.readV y).toNat : Int) % 256) ∧
      (x ≠ 15 → y = 15 → ((t.readV x).toNat : Int) = ((s.readV x).toNat - c : Int) % 256) ∧
      (x = 15 → y ≠ 15 → ((t.readV 15).toNat : Int) = (c - (s.readV y).toNat : Int) % 256) ∧
      (x = 15 → y = 15 → (t.readV 15).toNat = 0)

/-- R138: Vx in place, y without effect; with x = F the result is always 0 (D11). -/
def Obligations.ShiftRightSetsBitShiftedOut : Prop :=
  ∀ (s : State) (x y : RegIdx), ∃ t, exec (.shr x y) s = .next t ∧ t.pc = s.pc + 2 ∧
    OnlyChanges s t (fun p => p = .pc ∨ p = .v x ∨ p = .v 15) ∧
    (x ≠ 15 → (t.readV x).toNat = (s.readV x).toNat / 2 ∧ (t.readV 15).toNat = (s.readV x).toNat % 2) ∧
    (x = 15 → (t.readV 15).toNat = 0)

/-- R139 and R140: the two stubs always raise `UnimplementedOpcode` with their own word, and write nothing else. -/
def Obligations.StubsRaiseUnimplemented : Prop :=
  ∀ (s : State) (x y : RegIdx),
    exec (.stub7 x y) s = .next (halts s .unimplementedOpcode (BitVec.ofNat 16 (0x8007 + 256 * x.val + 16 * y.val))) ∧
    exec (.stubE x y) s = .next (halts s .unimplementedOpcode (BitVec.ofNat 16 (0x800E + 256 * x.val + 16 * y.val)))

/-- R141: the result is a free byte under the mask `kk`: no bit that `kk` lacks, and nothing said of the rest (a free
input under no law is the spec's decision D6; its numbering is the model's, log 5). -/
def Obligations.RandomByteIsMasked : Prop :=
  ∀ (s : State) (x : RegIdx) (kk : Byte),
    ∃ (t : State) (rnd : Byte), exec (.rnd x kk) s = .next t ∧ rnd = Config.randomByte s.rndCount ∧
      (∀ b, (t.readV x).getLsbD b = (rnd.getLsbD b && kk.getLsbD b)) ∧ (kk = 0 → t.readV x = 0) ∧
      t.rndCount = s.rndCount + 1 ∧ t.pc = s.pc + 2 ∧ OnlyChanges s t (fun p => p = .pc ∨ p = .v x ∨ p = .rndCount)

/-! ### Index register and memory -/

/-- R150, R151, R152 (no flag, 16 bits and no mask are the spec's decisions D14 and D19 and its derivation in R152). -/
def Obligations.IndexRegisterWrites : Prop :=
  ∀ (s : State) (x : RegIdx) (nnn : Addr12),
    (∃ t, exec (.ldI nnn) s = .next t ∧ t.i.toNat = nnn.toNat ∧ t.pc = s.pc + 2 ∧ OnlyChanges s t (fun p => p = .pc ∨ p = .i)) ∧
    (∃ t, exec (.addI x) s = .next t ∧ t.i.toNat = (s.i.toNat + (s.readV x).toNat) % 65536 ∧ t.pc = s.pc + 2 ∧
      OnlyChanges s t (fun p => p = .pc ∨ p = .i)) ∧
    (∃ t, exec (.ldF x) s = .next t ∧ t.i.toNat = (s.readV x).toNat * 5 ∧ t.pc = s.pc + 2 ∧
      OnlyChanges s t (fun p => p = .pc ∨ p = .i))

/-- R153. -/
def Obligations.BcdStoresThreeDigits : Prop :=
  ∀ (s : State) (x : RegIdx), Memory.wf s.mem = true →
    (4095 < s.i.toNat + 2 → exec (.ldB x) s = .next (halts s .memoryOutOfBounds 0)) ∧
    (s.i.toNat + 2 ≤ 4095 →
      ∃ t, exec (.ldB x) s = .next t ∧ (Memory.read t.mem s.i.toNat).toNat = (s.readV x).toNat / 100 ∧
        (Memory.read t.mem (s.i.toNat + 1)).toNat = (s.readV x).toNat / 10 % 10 ∧
        (Memory.read t.mem (s.i.toNat + 2)).toNat = (s.readV x).toNat % 10 ∧ t.pc = s.pc + 2 ∧
        OnlyChanges s t (fun p => p = .pc ∨ ∃ k < 3, p = .mem (s.i.toNat + k)))

/-- R154 (that `I` is kept is the spec's decision D14). -/
def Obligations.StoreBlockWritesRegisters : Prop :=
  ∀ (s : State) (x : RegIdx), Memory.wf s.mem = true →
    (4095 < s.i.toNat + x.val → exec (.storeRegs x) s = .next (halts s .memoryOutOfBounds 0)) ∧
    (s.i.toNat + x.val ≤ 4095 →
      ∃ t, exec (.storeRegs x) s = .next t ∧ (∀ r ≤ x, Memory.read t.mem (s.i.toNat + r.val) = s.readV r) ∧
        t.pc = s.pc + 2 ∧ OnlyChanges s t (fun p => p = .pc ∨ ∃ k ≤ x.val, p = .mem (s.i.toNat + k)))

/-- R155 (that `I` is kept is the spec's decision D14). -/
def Obligations.LoadBlockReadsRegisters : Prop :=
  ∀ (s : State) (x : RegIdx),
    (4095 < s.i.toNat + x.val → exec (.loadRegs x) s = .next (halts s .memoryOutOfBounds 0)) ∧
    (s.i.toNat + x.val ≤ 4095 →
      ∃ t, exec (.loadRegs x) s = .next t ∧ (∀ r ≤ x, t.readV r = Memory.read s.mem (s.i.toNat + r.val)) ∧
        t.pc = s.pc + 2 ∧ OnlyChanges s t (fun p => p = .pc ∨ ∃ r ≤ x, p = .v r))

/-! ### Display -/

/-- R171 (that VF is kept is the spec's decision D14). -/
def Obligations.ClearBlanksDisplay : Prop :=
  ∀ s : State, ∃ t, exec .cls s = .next t ∧ (∀ p, t.disp.pixel p = false) ∧ t.updateScreen = true ∧ drew .cls = true ∧
    t.pc = s.pc + 2 ∧ OnlyChanges s t (fun p => p = .pc ∨ p = .updateScreen ∨ ∃ q, p = .pixel q)

/-- R172 (clearing VF first is the spec's decision D13): the blitter's loop, cell by cell. A draw turns over exactly the
covered cells, VF says whether one of them was lit, and a sprite that spills past Memory changes nothing. -/
def Obligations.DrawXorsCoveredCells : Prop :=
  ∀ (s : State) (x y : RegIdx) (n : Nat), s.disp.wf = true →
    (¬ Fits s n → exec (.drw x y n) s = .next (halts s .memoryOutOfBounds 0)) ∧
    (Fits s n →
      ∃ t, exec (.drw x y n) s = .next t ∧ (∀ p, t.disp.pixel p = (s.disp.pixel p ^^ covered s x y n p)) ∧
        ((∃ p, covered s x y n p = true ∧ s.disp.pixel p = true) → t.readV 15 = 1) ∧
        ((∀ p, covered s x y n p = true → s.disp.pixel p = false) → t.readV 15 = 0) ∧
        t.updateScreen = true ∧ drew (.drw x y n) = true ∧ t.pc = s.pc + 2 ∧
        OnlyChanges s t (fun p => p = .pc ∨ p = .v 15 ∨ p = .updateScreen ∨ ∃ q, p = .pixel q))

/-- R173: two identical draws leave every cell as it was, whatever the buffer held; over a clear region the first sets
no collision, and the second sets it exactly when the sprite has a set bit inside the buffer (VF cleared first: D13). -/
def Obligations.DrawTwiceRestores : Prop :=
  ∀ (s s' : State) (x y : RegIdx) (n : Nat), s.disp.wf = true → Fits s n →
    ∃ t, exec (.drw x y n) s = .next t ∧
      (s'.disp = t.disp → s'.i = s.i → s'.readV x = s.readV x → s'.readV y = s.readV y →
        (∀ k < n, Memory.read s'.mem (s.i.toNat + k) = Memory.read s.mem (s.i.toNat + k)) →
        ∃ u, exec (.drw x y n) s' = .next u ∧ (∀ p, u.disp.pixel p = s.disp.pixel p) ∧
          (t.readV 15 = 1 ↔ ∃ p, covered s x y n p = true ∧ s.disp.pixel p = true) ∧
          ((∀ p, covered s x y n p = true → s.disp.pixel p = false) →
            t.readV 15 = 0 ∧ ((∃ p, covered s x y n p = true) → u.readV 15 = 1) ∧
              ((∀ p, covered s x y n p = false) → u.readV 15 = 0)))

/-! ### Timers and keys -/

/-- R180, R181, R182, with the decrement of their own Step (its order is the spec's decision D9). -/
def Obligations.TimerInstructions : Prop :=
  ∀ (s : State) (x : RegIdx),
    (∃ t, exec (.ldVxDT x) s = .next t ∧ t.readV x = s.dt ∧ t.pc = s.pc + 2 ∧ OnlyChanges s t (fun p => p = .pc ∨ p = .v x)) ∧
    (∃ t, exec (.ldDTVx x) s = .next t ∧ t.dt = s.readV x ∧ t.pc = s.pc + 2 ∧ OnlyChanges s t (fun p => p = .pc ∨ p = .dt)) ∧
    (∃ t, exec (.ldSTVx x) s = .next t ∧ t.st = s.readV x ∧ t.pc = s.pc + 2 ∧ OnlyChanges s t (fun p => p = .pc ∨ p = .st)) ∧
    (InstrAt s (.ldVxDT x) → ∃ t, step s = .next t ∧ t.readV x = s.dt ∧ t.dt.toNat = s.dt.toNat - 1) ∧
    (InstrAt s (.ldDTVx x) → ∃ t, step s = .next t ∧ t.dt.toNat = (s.readV x).toNat - 1 ∧ t.st.toNat = s.st.toNat - 1) ∧
    (InstrAt s (.ldSTVx x) → ∃ t, step s = .next t ∧ t.st.toNat = (s.readV x).toNat - 1 ∧ t.dt.toNat = s.dt.toNat - 1)

/-- R183, R184: a key number above 15 is a fault (D15), else the skip tests the key's level. -/
def Obligations.KeySkipsTestLevel : Prop :=
  ∀ (s : State) (x : RegIdx),
    (15 < (s.readV x).toNat →
      exec (.skp x) s = .next (halts s .keyIndexOutOfRange 0) ∧ exec (.sknp x) s = .next (halts s .keyIndexOutOfRange 0)) ∧
    (∀ k : RegIdx, (s.readV x).toNat = k.val →
      (∃ t, exec (.skp x) s = .next t ∧ t.pc = afterSkip s (s.keys[k] = true) ∧ OnlyChanges s t (fun p => p = .pc)) ∧
      (∃ t, exec (.sknp x) s = .next t ∧ t.pc = afterSkip s (s.keys[k] = false) ∧ OnlyChanges s t (fun p => p = .pc)))

/-- R185: the wait is armed whatever the keys are, no V register is written, pc advances (the spec's decision D10), and
the Step reports the wait. -/
def Obligations.KeyWaitIsArmed : Prop :=
  ∀ (s : State) (x : RegIdx),
    (∃ t, exec (.ldVxK x) s = .next t ∧ t.keyReg = x ∧ t.mode = .waitingForKey ∧ t.pc = s.pc + 2 ∧
      OnlyChanges s t (fun p => p = .pc ∨ p = .keyReg ∨ p = .mode)) ∧
    (InstrAt s (.ldVxK x) → stepResult s = some (.ok { displayChanged := false, waitingForKey := true }))

/-- A timer is 0 after as many executed instructions as it held, and stays there (95_test_vectors.md S6, read as the
spec's decisions D8 and D9 say). -/
def Obligations.TimersCountInstructions : Prop :=
  ∀ (n : Nat) (s t : State), TimedSteps n s t → t.dt.toNat = s.dt.toNat - n ∧ t.st.toNat = s.st.toNat - n

/-! ### The whole machine -/

/-- Every instruction of the machine, in Running mode, either faults, writing the fault registers alone, or changes
only the parts its own rule names (00_scope.md section 5; the spec's decision D14). -/
def Obligations.NoUnlistedEffects : Prop :=
  ∀ (i : Instr) (s : State), s.mode = .running →
    ∃ t, exec i s = .next t ∧
      ((t.mode = .halted ∧ OnlyChanges s t faultParts) ∨ (t.mode ≠ .halted ∧ OnlyChanges s t (writes s i)))

/-- No Step writes the key table, the recorded program length or a parameter of the machine (the size of the display
buffer, FONT), and none clears `updateScreen` (10_state.md sections 7 to 9). -/
def Obligations.StepLeavesHostState : Prop :=
  ∀ s t : State, step s = .next t →
    t.keys = s.keys ∧ t.romSize = s.romSize ∧ t.disp.width = s.disp.width ∧ t.disp.height = s.disp.height ∧
      t.font = s.font ∧ (s.updateScreen = true → t.updateScreen = true)

/-- Memory changes only in a Step that executes `Fx33` or `Fx55`, and only in that instruction's own bytes
(20_memory.md section 9). -/
def Obligations.MemoryWrittenOnlyByStores : Prop :=
  ∀ (s t : State) (a : Nat), step s = .next t → Memory.read t.mem a ≠ Memory.read s.mem a →
    ∃ x : RegIdx, (InstrAt s (.ldB x) ∧ s.i.toNat ≤ a ∧ a ≤ s.i.toNat + 2) ∨
      (InstrAt s (.storeRegs x) ∧ s.i.toNat ≤ a ∧ a ≤ s.i.toNat + x.val)

/-- The display changes only in a Step that executes `00E0` or `Dxyn`, the stack entries only by `2nnn`, `I` only by
`Annn`, `Fx1E` and `Fx29` (10_state.md sections 5 and 7). -/
def Obligations.WritersOfDisplayStackIndex : Prop :=
  ∀ s t : State, step s = .next t →
    (t.disp ≠ s.disp → ∃ i, InstrAt s i ∧ (i = .cls ∨ ∃ x y n, i = .drw x y n)) ∧
    (t.stack ≠ s.stack → ∃ nnn, InstrAt s (.call nnn)) ∧
    (t.i ≠ s.i → ∃ i, InstrAt s i ∧ ((∃ nnn, i = .ldI nnn) ∨ (∃ x, i = .addI x) ∨ ∃ x, i = .ldF x))

/-- A store is seen by the very next fetch (20_memory.md section 8): when `Fx55` writes the two bytes its own Step
leaves pc at, those are the bytes fetched (the spec's decision D24). -/
def Obligations.NextFetchSeesStore : Prop :=
  ∀ (s : State) (x r : RegIdx) (hr : r.val + 1 < 16), InstrAt s (.storeRegs x) → Memory.wf s.mem = true →
    s.i.toNat + x.val ≤ 4095 → r.val + 1 ≤ x.val → s.pc.toNat + 2 = s.i.toNat + r.val →
    ∃ t, step s = .next t ∧ t.fetch = some (s.readV r, s.readV ⟨r.val + 1, hr⟩)

/-- The free input `rnd` is read by `Cxkk` alone (40_step_cycle.md section 1, the spec's decision D6): in every other Step the numbering of the
draws (log 5) makes no difference. -/
def Obligations.RandomReadOnlyByRnd : Prop :=
  ∀ (s t : State) (n : Nat), (∀ x kk, ¬ InstrAt s (.rnd x kk)) → step s = .next t →
    t.rndCount = s.rndCount ∧ step { s with rndCount := n } = .next { t with rndCount := n }

/-- Nothing in the block reads the recorded length, and nothing reads ST but its own decrement (10_state.md sections 6
and 8): a Step from states that differ in them alone ends in states that differ in them alone. -/
def Obligations.RomSizeAndSoundTimerUnread : Prop :=
  ∀ (s t : State) (n : Nat) (b : Byte), step s = .next t →
    ∃ t', step { s with romSize := n, st := b } = .next t' ∧ OnlyChanges t t' (fun p => p = .romSize ∨ p = .st)

/-- R230: the host's reset of a machine in any state leaves the reset state of that machine's own W, H and FONT; a program
loaded earlier is gone. That reset may be repeated is the spec's decision D5; that the model's count of draws stays is
log 5. -/
def Obligations.HostResetRestoresResetState : Prop :=
  ∀ s : State,
    OnlyChanges (State.resetWith s.disp.width s.disp.height s.font) (s.move .reset) (fun p => p = .rndCount) ∧
      (s.move .reset).rndCount = s.rndCount ∧ (∀ a : Fin 80, Memory.read (s.move .reset).mem a.val = s.font[a])
end

