-- ==== Sys2Proof/Laws/Decode.lean ====
section
/-! SUPPORT. The fields of packed words and the words of their fields, as numbers, and how a field sees a mask. -/

namespace Sys2Proof

/-! ### Fields and packed words as numbers -/

@[simp] theorem fieldOp_toNat (w : Word) : (fieldOp w).toNat = w.toNat / 4096 := by
  have := w.isLt
  simp only [fieldOp, BitVec.extractLsb'_toNat, Nat.shiftRight_eq_div_pow]
  omega

@[simp] theorem fieldX_val (w : Word) : (fieldX w).val = w.toNat / 256 % 16 := by
  show (w.extractLsb' 8 4).toNat = _
  simp [BitVec.extractLsb'_toNat, Nat.shiftRight_eq_div_pow]

@[simp] theorem fieldY_val (w : Word) : (fieldY w).val = w.toNat / 16 % 16 := by
  show (w.extractLsb' 4 4).toNat = _
  simp [BitVec.extractLsb'_toNat, Nat.shiftRight_eq_div_pow]

@[simp] theorem fieldN_toNat (w : Word) : (fieldN w).toNat = w.toNat % 16 := by
  simp [fieldN, BitVec.extractLsb'_toNat]

@[simp] theorem fieldKK_toNat (w : Word) : (fieldKK w).toNat = w.toNat % 256 := by
  simp [fieldKK, BitVec.extractLsb'_toNat]

@[simp] theorem fieldNNN_toNat (w : Word) : (fieldNNN w).toNat = w.toNat % 4096 := by
  simp [fieldNNN, BitVec.extractLsb'_toNat]

theorem toNat_append_eq {a b : Nat} (u : BitVec a) (v : BitVec b) : (u ++ v).toNat = u.toNat * 2 ^ b + v.toNat := by
  rw [BitVec.toNat_append, ← Nat.shiftLeft_add_eq_or_of_lt v.isLt, Nat.shiftLeft_eq]

@[simp] theorem nibble_toNat (x : RegIdx) : (nibble x).toNat = x.val := rfl

@[simp] theorem packNNN_toNat (op : BitVec 4) (nnn : Addr12) :
    (packNNN op nnn).toNat = op.toNat * 4096 + nnn.toNat :=
  toNat_append_eq op nnn

@[simp] theorem packXKK_toNat (op : BitVec 4) (x : RegIdx) (kk : Byte) :
    (packXKK op x kk).toNat = op.toNat * 4096 + (x.val * 256 + kk.toNat) := by
  have h := toNat_append_eq op (nibble x ++ kk)
  rw [toNat_append_eq (nibble x) kk] at h
  exact h

@[simp] theorem packXYN_toNat (op : BitVec 4) (x y : RegIdx) (n : BitVec 4) :
    (packXYN op x y n).toNat = op.toNat * 4096 + (x.val * 256 + (y.val * 16 + n.toNat)) := by
  have h := toNat_append_eq op (nibble x ++ (nibble y ++ n))
  rw [toNat_append_eq (nibble x) (nibble y ++ n), toNat_append_eq (nibble y) n] at h
  exact h

@[simp] theorem bigEndian_toNat (hi lo : Byte) : (bigEndian hi lo).toNat = hi.toNat * 256 + lo.toNat :=
  toNat_append_eq hi lo

/-! ### Fields of a packed word -/

@[simp] theorem fieldOp_packNNN (op : BitVec 4) (nnn : Addr12) : fieldOp (packNNN op nnn) = op := by
  apply BitVec.eq_of_toNat_eq; simp; omega

@[simp] theorem fieldNNN_packNNN (op : BitVec 4) (nnn : Addr12) : fieldNNN (packNNN op nnn) = nnn := by
  apply BitVec.eq_of_toNat_eq; simp; omega

@[simp] theorem fieldOp_packXKK (op : BitVec 4) (x : RegIdx) (kk : Byte) : fieldOp (packXKK op x kk) = op := by
  apply BitVec.eq_of_toNat_eq; simp; omega

@[simp] theorem fieldX_packXKK (op : BitVec 4) (x : RegIdx) (kk : Byte) : fieldX (packXKK op x kk) = x := by
  apply Fin.ext; simp; omega

@[simp] theorem fieldKK_packXKK (op : BitVec 4) (x : RegIdx) (kk : Byte) : fieldKK (packXKK op x kk) = kk := by
  apply BitVec.eq_of_toNat_eq; simp; omega

@[simp] theorem fieldOp_packXYN (op : BitVec 4) (x y : RegIdx) (n : BitVec 4) : fieldOp (packXYN op x y n) = op := by
  apply BitVec.eq_of_toNat_eq; simp; omega

@[simp] theorem fieldX_packXYN (op : BitVec 4) (x y : RegIdx) (n : BitVec 4) : fieldX (packXYN op x y n) = x := by
  apply Fin.ext; simp; omega

@[simp] theorem fieldY_packXYN (op : BitVec 4) (x y : RegIdx) (n : BitVec 4) : fieldY (packXYN op x y n) = y := by
  apply Fin.ext; simp; omega

@[simp] theorem fieldN_packXYN (op : BitVec 4) (x y : RegIdx) (n : BitVec 4) : fieldN (packXYN op x y n) = n := by
  apply BitVec.eq_of_toNat_eq; simp; omega

/-! ### A word is the packing of its fields -/

theorem packNNN_fields (w : Word) : packNNN (fieldOp w) (fieldNNN w) = w := by
  apply BitVec.eq_of_toNat_eq; simp; omega

theorem packXKK_fields (w : Word) : packXKK (fieldOp w) (fieldX w) (fieldKK w) = w := by
  apply BitVec.eq_of_toNat_eq; simp; omega

theorem packXYN_fields (w : Word) : packXYN (fieldOp w) (fieldX w) (fieldY w) (fieldN w) = w := by
  apply BitVec.eq_of_toNat_eq; simp; omega

@[simp] theorem highByte_toNat (w : Word) : (highByte w).toNat = w.toNat / 256 := by
  have := w.isLt
  simp only [highByte, BitVec.extractLsb'_toNat, Nat.shiftRight_eq_div_pow]
  omega

@[simp] theorem lowByte_toNat (w : Word) : (lowByte w).toNat = w.toNat % 256 := by
  simp [lowByte, BitVec.extractLsb'_toNat]

/-- The bytes of a word, laid out big-endian, give the word back (20_memory.md R52). -/
@[simp] theorem bigEndian_bytes (w : Word) : bigEndian (highByte w) (lowByte w) = w := by
  apply BitVec.eq_of_toNat_eq; simp; omega

/-! ### Masks -/

theorem fieldOp_and (w m : Word) : fieldOp (w &&& m) = fieldOp w &&& fieldOp m := by
  ext i hi; simp [fieldOp]

theorem fieldN_and (w m : Word) : fieldN (w &&& m) = fieldN w &&& fieldN m := by
  ext i hi; simp [fieldN]

theorem fieldKK_and (w m : Word) : fieldKK (w &&& m) = fieldKK w &&& fieldKK m := by
  ext i hi; simp [fieldKK]

theorem fieldNNN_and (w m : Word) : fieldNNN (w &&& m) = fieldNNN w &&& fieldNNN m := by
  ext i hi; simp [fieldNNN]

theorem fieldX_and (w m : Word) (h : fieldX m = 0) : fieldX (w &&& m) = 0 := by
  have h' : m.extractLsb' 8 4 = 0#4 := BitVec.eq_of_toNat_eq (congrArg Fin.val h)
  show ((w &&& m).extractLsb' 8 4).toFin = 0
  rw [BitVec.extractLsb'_and, h', BitVec.and_zero]; rfl

theorem fieldY_and (w m : Word) (h : fieldY m = 0) : fieldY (w &&& m) = 0 := by
  have h' : m.extractLsb' 4 4 = 0#4 := BitVec.eq_of_toNat_eq (congrArg Fin.val h)
  show ((w &&& m).extractLsb' 4 4).toFin = 0
  rw [BitVec.extractLsb'_and, h', BitVec.and_zero]; rfl

/-- A word under the mask 0xF000 is its top nibble. -/
theorem and_F000 (w : Word) : w &&& 0xF000 = packNNN (fieldOp w) 0 := by
  rw [← packNNN_fields (w &&& 0xF000), fieldOp_and, fieldNNN_and,
    show fieldOp (0xF000 : Word) = BitVec.allOnes 4 by decide, show fieldNNN (0xF000 : Word) = 0#12 by decide,
    BitVec.and_allOnes, BitVec.and_zero]
  rfl

/-- A word under the mask 0xF00F is its top and its low nibble. -/
theorem and_F00F (w : Word) : w &&& 0xF00F = packXYN (fieldOp w) 0 0 (fieldN w) := by
  rw [← packXYN_fields (w &&& 0xF00F), fieldOp_and, fieldN_and, fieldX_and w _ (by decide), fieldY_and w _ (by decide),
    show fieldOp (0xF00F : Word) = BitVec.allOnes 4 by decide, show fieldN (0xF00F : Word) = BitVec.allOnes 4 by decide,
    BitVec.and_allOnes, BitVec.and_allOnes]

/-- A word under the mask 0xF0FF is its top nibble and its low byte. -/
theorem and_F0FF (w : Word) : w &&& 0xF0FF = packXKK (fieldOp w) 0 (fieldKK w) := by
  rw [← packXKK_fields (w &&& 0xF0FF), fieldOp_and, fieldKK_and, fieldX_and w _ (by decide),
    show fieldOp (0xF0FF : Word) = BitVec.allOnes 4 by decide, show fieldKK (0xF0FF : Word) = BitVec.allOnes 8 by decide,
    BitVec.and_allOnes, BitVec.and_allOnes]

/-- A word under the mask 0xFFFF is itself. -/
theorem and_FFFF (w : Word) : w &&& 0xFFFF = w := BitVec.and_allOnes (x := w)

end Sys2Proof
end

