-- ==== Sys2Proof/Laws/Display.lean ====
section
/-! SUPPORT. The laws of the display buffer: turning a cell over, the blitter cell by cell, the target cells of a sprite, and that the canonical form is kept. -/

namespace Sys2Proof.Machine

theorem Pixel.before_iff {p q : Pixel} : Pixel.before p q = true ↔ p.2 < q.2 ∨ (p.2 = q.2 ∧ p.1 < q.1) := by
  simp [Pixel.before]

theorem Pixel.before_trans {p q r : Pixel} (h : Pixel.before p q = true) (h' : Pixel.before q r = true) :
    Pixel.before p r = true := by
  rw [Pixel.before_iff] at *; omega

theorem Pixel.not_before_self (p : Pixel) : Pixel.before p p = false := by
  simp [Pixel.before]

/-- Two different cells stand in one order or the other. -/
theorem Pixel.before_of_ne {p q : Pixel} (hne : p ≠ q) (h : ¬ Pixel.before p q = true) : Pixel.before q p = true := by
  rw [Pixel.before_iff] at *
  have : ¬ (p.1 = q.1 ∧ p.2 = q.2) := fun e => hne (Prod.ext e.1 e.2)
  omega

/-- The list is in row-major order without repeats, and inside a `w` by `h` grid. -/
theorem Display.wfAfter_iff {w h : Nat} {p : Option Pixel} {l : List Pixel} :
    Display.wfAfter w h p l = true ↔
      (l.Pairwise fun a b => Pixel.before a b = true) ∧ (∀ q ∈ l, q.1 < w ∧ q.2 < h) ∧
        ∀ q ∈ l, ∀ r ∈ p, Pixel.before r q = true := by
  induction l generalizing p with
  | nil => simp [Display.wfAfter]
  | cons q qs ih =>
    simp only [Display.wfAfter, Bool.and_eq_true, ih, decide_eq_true_eq, List.pairwise_cons, List.forall_mem_cons,
      Option.mem_def, Option.some.injEq, forall_eq']
    constructor
    · rintro ⟨⟨hp, hin⟩, hqs, hins, hafter⟩
      refine ⟨⟨hafter, hqs⟩, ⟨hin, hins⟩, fun r hr => ?_, fun a ha r hr => ?_⟩
      · subst hr; exact hp
      · subst hr; exact Pixel.before_trans hp (hafter a ha)
    · rintro ⟨⟨hafter, hqs⟩, ⟨hin, hins⟩, hp, -⟩
      refine ⟨⟨?_, hin⟩, hqs, hins, hafter⟩
      cases p with
      | none => rfl
      | some r => exact hp r rfl

/-- The canonical form of the display buffer, read out. -/
theorem Display.wf_iff {d : Display} :
    d.wf = true ↔ (1 ≤ d.width ∧ 1 ≤ d.height) ∧ (d.lit.Pairwise fun a b => Pixel.before a b = true) ∧
      ∀ q ∈ d.lit, q.1 < d.width ∧ q.2 < d.height := by
  simp [Display.wf, Display.wfAfter_iff]

theorem Display.pixel_iff {d : Display} {p : Pixel} : d.pixel p = true ↔ p ∈ d.lit := by
  simp [Display.pixel]

theorem Display.inside_iff {d : Display} {p : Pixel} : d.inside p = true ↔ p.1 < d.width ∧ p.2 < d.height := by
  simp [Display.inside]

/-! ### Turning one cell over -/

theorem mem_toggle_other {p q : Pixel} {l : List Pixel} (hne : q ≠ p) : q ∈ toggle p l ↔ q ∈ l := by
  induction l with
  | nil => simp [toggle, hne]
  | cons a l ih =>
    unfold toggle
    split
    · next h => subst h; simp [hne]
    · split <;> simp [hne, ih]

theorem mem_toggle_self {p : Pixel} {l : List Pixel} (h : l.Pairwise fun a b => Pixel.before a b = true) :
    p ∈ toggle p l ↔ p ∉ l := by
  induction l with
  | nil => simp [toggle]
  | cons a l ih =>
    rw [List.pairwise_cons] at h
    unfold toggle
    split
    · next he =>
      subst he
      have : p ∉ l := fun hp => by simpa [Pixel.not_before_self] using h.1 p hp
      simp [this]
    · next hne =>
      split
      · next hb =>
        have : p ∉ l := fun hp => by
          simpa [Pixel.not_before_self] using Pixel.before_trans hb (h.1 p hp)
        simp [hne, this]
      · simp [hne, ih h.2]

theorem toggle_pairwise {p : Pixel} {l : List Pixel} (h : l.Pairwise fun a b => Pixel.before a b = true) :
    (toggle p l).Pairwise fun a b => Pixel.before a b = true := by
  induction l with
  | nil => simp [toggle]
  | cons a l ih =>
    have h' := List.pairwise_cons.1 h
    unfold toggle
    split
    · exact h'.2
    · next hne =>
      split
      · next hb =>
        refine List.pairwise_cons.2 ⟨fun q hq => ?_, h⟩
        rcases List.mem_cons.1 hq with rfl | hq
        · exact hb
        · exact Pixel.before_trans hb (h'.1 q hq)
      · next hb =>
        refine List.pairwise_cons.2 ⟨fun q hq => ?_, ih h'.2⟩
        by_cases hqp : q = p
        · subst hqp; exact Pixel.before_of_ne hne hb
        · exact h'.1 q ((mem_toggle_other hqp).1 hq)

@[simp] theorem Display.flip_width (d : Display) (p : Pixel) : (d.flip p).width = d.width := rfl
@[simp] theorem Display.flip_height (d : Display) (p : Pixel) : (d.flip p).height = d.height := rfl
@[simp] theorem Display.flip_inside (d : Display) (p q : Pixel) : (d.flip p).inside q = d.inside q := rfl
@[simp] theorem Display.clear_width (d : Display) : d.clear.width = d.width := rfl
@[simp] theorem Display.clear_height (d : Display) : d.clear.height = d.height := rfl
@[simp] theorem Display.clear_pixel (d : Display) (p : Pixel) : d.clear.pixel p = false := by
  simp [Display.pixel, Display.clear]

/-- Clearing keeps the canonical form. -/
theorem Display.clear_wf {d : Display} (h : d.wf = true) : d.clear.wf = true := by
  rw [Display.wf_iff] at *
  simpa [Display.clear] using h.1

/-- Turning a cell over leaves every other cell. -/
theorem Display.flip_pixel_other (d : Display) {p q : Pixel} (hne : q ≠ p) : (d.flip p).pixel q = d.pixel q := by
  rw [Bool.eq_iff_iff, Display.pixel_iff, Display.pixel_iff]
  exact mem_toggle_other hne

/-- Turning a cell over turns it over. -/
theorem Display.flip_pixel_self {d : Display} (h : d.wf = true) (p : Pixel) : (d.flip p).pixel p = !d.pixel p := by
  rw [Bool.eq_iff_iff, Bool.not_eq_true', ← Bool.not_eq_true, Display.pixel_iff, Display.pixel_iff]
  exact mem_toggle_self (Display.wf_iff.1 h).2.1

/-- Turning a cell inside the buffer over keeps the canonical form. -/
theorem Display.flip_wf {d : Display} (h : d.wf = true) {p : Pixel} (hp : d.inside p = true) : (d.flip p).wf = true := by
  rw [Display.wf_iff] at *
  rw [Display.inside_iff] at hp
  refine ⟨h.1, toggle_pairwise h.2.1, fun q hq => ?_⟩
  by_cases hqp : q = p
  · subst hqp; exact hp
  · exact h.2.2 q ((mem_toggle_other hqp).1 hq)

/-! ### The blitter -/

@[simp] theorem Display.draw_width (d : Display) (ps : List Pixel) : (d.draw ps).1.width = d.width := by
  induction ps generalizing d with
  | nil => rfl
  | cons p ps ih => unfold Display.draw; split <;> simp [ih]

@[simp] theorem Display.draw_height (d : Display) (ps : List Pixel) : (d.draw ps).1.height = d.height := by
  induction ps generalizing d with
  | nil => rfl
  | cons p ps ih => unfold Display.draw; split <;> simp [ih]

/-- Drawing keeps the canonical form. -/
theorem Display.draw_wf {d : Display} (h : d.wf = true) (ps : List Pixel) : (d.draw ps).1.wf = true := by
  induction ps generalizing d with
  | nil => exact h
  | cons p ps ih =>
    unfold Display.draw
    split
    · next hp => exact ih (Display.flip_wf h hp)
    · exact ih h

/-- Each cell after a draw is the cell before, turned over when it is a target cell inside the buffer. -/
theorem Display.draw_pixel {d : Display} (h : d.wf = true) {ps : List Pixel} (hnd : ps.Nodup) (q : Pixel) :
    (d.draw ps).1.pixel q = (d.pixel q ^^ (decide (q ∈ ps) && d.inside q)) := by
  induction ps generalizing d with
  | nil => simp [Display.draw]
  | cons p ps ih =>
    rw [List.nodup_cons] at hnd
    unfold Display.draw
    by_cases hp : d.inside p = true
    · simp only [hp, if_true]
      rw [ih (Display.flip_wf h hp) hnd.2]
      by_cases hqp : q = p
      · subst hqp; simp [Display.flip_pixel_self h, hnd.1, hp]
      · simp [Display.flip_pixel_other d hqp, hqp]
    · simp only [hp, if_false, Bool.false_eq_true]
      rw [ih h hnd.2]
      by_cases hqp : q = p
      · subst hqp; simp [hp]
      · simp [hqp]

/-- The collision report of a draw: some target cell inside the buffer was lit. -/
theorem Display.draw_hit {d : Display} (h : d.wf = true) {ps : List Pixel} (hnd : ps.Nodup) :
    (d.draw ps).2 = true ↔ ∃ p ∈ ps, d.inside p = true ∧ d.pixel p = true := by
  induction ps generalizing d with
  | nil => simp [Display.draw]
  | cons p ps ih =>
    rw [List.nodup_cons] at hnd
    unfold Display.draw
    by_cases hp : d.inside p = true
    · simp only [hp, if_true, Bool.or_eq_true, ih (Display.flip_wf h hp) hnd.2, List.exists_mem_cons_iff, true_and]
      refine or_congr_right (exists_congr fun q => and_congr_right fun hq => ?_)
      have hqp : q ≠ p := fun e => hnd.1 (e ▸ hq)
      simp [Display.flip_pixel_other d hqp]
    · simp [hp, ih h hnd.2]

/-! ### The target cells of a sprite -/

theorem mem_rowPixels {px py : Nat} {b : Byte} {q : Pixel} :
    q ∈ rowPixels px py b ↔ q.2 = py ∧ px ≤ q.1 ∧ q.1 < px + 8 ∧ b.getLsbD (7 - (q.1 - px)) = true := by
  obtain ⟨qx, qy⟩ := q
  simp only [rowPixels, List.mem_filterMap, List.mem_range, Option.ite_none_right_eq_some, Option.some.injEq,
    Prod.mk.injEq]
  constructor
  · rintro ⟨c, hc, hb, rfl, rfl⟩
    refine ⟨rfl, by omega, by omega, ?_⟩
    rwa [Nat.add_sub_cancel_left]
  · rintro ⟨rfl, h1, h2, hb⟩
    exact ⟨qx - px, by omega, hb, by omega, rfl⟩

/-- The target cells are those whose row byte has the bit of their column set. -/
theorem mem_spritePixels {px py : Nat} {bs : List Byte} {q : Pixel} :
    q ∈ spritePixels px py bs ↔
      ∃ r, ∃ h : r < bs.length, q.2 = py + r ∧ px ≤ q.1 ∧ q.1 < px + 8 ∧ bs[r].getLsbD (7 - (q.1 - px)) = true := by
  induction bs generalizing py with
  | nil => simp [spritePixels]
  | cons b bs ih =>
    simp only [spritePixels, List.mem_append, mem_rowPixels, ih]
    constructor
    · rintro (h | ⟨r, hr, h⟩)
      · exact ⟨0, by simp, by simpa using h⟩
      · exact ⟨r + 1, by simpa using hr, by rw [← Nat.add_assoc, Nat.add_right_comm]; exact h.1, by simpa using h.2⟩
    · rintro ⟨r, hr, h⟩
      cases r with
      | zero => exact .inl (by simpa using h)
      | succ r =>
        refine .inr ⟨r, by simpa using hr, by omega, by simpa using h.2⟩

theorem rowPixels_nodup (px py : Nat) (b : Byte) : (rowPixels px py b).Nodup := by
  refine List.Nodup.filterMap ?_ List.nodup_range
  intro c c' q hq hq'
  simp only [Option.mem_def, Option.ite_none_right_eq_some, Option.some.injEq] at hq hq'
  have := congrArg Prod.fst (hq.2.trans hq'.2.symm)
  simpa using this

/-- No cell is a target of one sprite twice (44_display.md R172g). -/
theorem spritePixels_nodup (px py : Nat) (bs : List Byte) : (spritePixels px py bs).Nodup := by
  induction bs generalizing py with
  | nil => exact List.nodup_nil
  | cons b bs ih =>
    refine List.nodup_append.2 ⟨rowPixels_nodup px py b, ih (py + 1), fun q hq q' hq' e => ?_⟩
    subst e
    obtain ⟨r, -, h, -⟩ := mem_spritePixels.1 hq'
    have := (mem_rowPixels.1 hq).1
    omega

end Sys2Proof.Machine
end

