-- ==== Sys2Proof/Laws/Memory.lean ====
section
/-! SUPPORT. The laws of Memory: reads after writes, and that every write keeps the canonical form. -/

namespace Sys2Proof.Machine.Memory

theorem wfFrom_cons {lo : Nat} {c : Host.Cell} {m : Memory} :
    wfFrom lo (c :: m) = true ↔
      lo ≤ c.1 ∧ c.1 < Config.memSize ∧ c.2 ≠ unlisted c.1 ∧ wfFrom (c.1 + 1) m = true := by
  simp [wfFrom, and_assoc]

theorem wfFrom_mono {lo lo' : Nat} {m : Memory} (hle : lo' ≤ lo) (h : wfFrom lo m = true) : wfFrom lo' m = true := by
  cases m with
  | nil => rfl
  | cons c m =>
    rw [wfFrom_cons] at h ⊢
    exact ⟨by omega, h.2⟩

/-- An address below every listed one reads as unlisted. -/
theorem read_below {lo a : Nat} {m : Memory} (h : wfFrom lo m = true) (ha : a < lo) : read m a = unlisted a := by
  induction m generalizing lo with
  | nil => rfl
  | cons c m ih =>
    rw [wfFrom_cons] at h
    have hne : c.1 ≠ a := by omega
    simpa [read, hne] using ih h.2.2.2 (by omega)

theorem read_insert_other {m : Memory} {a a' : Nat} {b : Byte} (hne : a' ≠ a) : read (insert m a b) a' = read m a' := by
  induction m with
  | nil => unfold insert; split <;> simp [read, Ne.symm hne]
  | cons c m ih =>
    unfold insert
    split
    · split <;> simp [read, Ne.symm hne]
    · split
      · next _ hc => subst hc; split <;> simp [read, Ne.symm hne]
      · simp [read, ih]

theorem read_insert_same {m : Memory} {lo a : Nat} {b : Byte} (h : wfFrom lo m = true) : read (insert m a b) a = b := by
  induction m generalizing lo with
  | nil => unfold insert; split <;> simp_all [read]
  | cons c m ih =>
    rw [wfFrom_cons] at h
    unfold insert
    split
    · next hlt =>
      split
      · next hb =>
        have hne : c.1 ≠ a := by omega
        rw [hb]; simpa [read, hne] using read_below h.2.2.2 (by omega)
      · simp [read]
    · split
      · next hc =>
        split
        · next hb => rw [hb]; exact read_below h.2.2.2 (by omega)
        · simp [read]
      · next hc =>
        have hne : c.1 ≠ a := fun e => hc e.symm
        simpa [read, hne] using ih h.2.2.2

theorem insert_wfFrom {m : Memory} {lo a : Nat} {b : Byte} (h : wfFrom lo m = true) (hlo : lo ≤ a)
    (ha : a < Config.memSize) : wfFrom lo (insert m a b) = true := by
  induction m generalizing lo with
  | nil =>
    unfold insert
    split
    · rfl
    · next hb => exact wfFrom_cons.2 ⟨hlo, ha, hb, rfl⟩
  | cons c m ih =>
    have h' := wfFrom_cons.1 h
    unfold insert
    split
    · next hlt =>
      split
      · exact h
      · next hb => exact wfFrom_cons.2 ⟨hlo, ha, hb, wfFrom_cons.2 ⟨hlt, h'.2⟩⟩
    · split
      · next hc =>
        subst hc
        split
        · exact wfFrom_mono (by omega) h'.2.2.2
        · next hb => exact wfFrom_cons.2 ⟨hlo, ha, hb, h'.2.2.2⟩
      · exact wfFrom_cons.2 ⟨h'.1, h'.2.1, h'.2.2.1, ih h'.2.2.2 (by omega)⟩

/-- Writing keeps the canonical form. -/
theorem write_wf {m : Memory} (h : wf m = true) (a : Nat) (b : Byte) : wf (write m a b) = true := by
  unfold write
  split
  · next ha => exact insert_wfFrom h (Nat.zero_le a) ha
  · exact h

theorem read_write_same {m : Memory} (h : wf m = true) {a : Nat} (ha : a < Config.memSize) (b : Byte) :
    read (write m a b) a = b := by
  simp only [write, ha, if_true]
  exact read_insert_same h

theorem read_write_other (m : Memory) {a a' : Nat} (b : Byte) (hne : a' ≠ a) : read (write m a b) a' = read m a' := by
  unfold write
  split
  · exact read_insert_other hne
  · rfl

/-- A run of writes keeps the canonical form. -/
theorem writeBytes_wf {m : Memory} (h : wf m = true) (a : Nat) (bs : List Byte) : wf (writeBytes m a bs) = true := by
  induction bs generalizing m a with
  | nil => exact h
  | cons b bs ih => exact ih (write_wf h a b) (a + 1)

/-- A run of writes changes no byte outside its range. -/
theorem read_writeBytes_outside (m : Memory) (a : Nat) (bs : List Byte) {a' : Nat}
    (h : a' < a ∨ a + bs.length ≤ a') : read (writeBytes m a bs) a' = read m a' := by
  induction bs generalizing m a with
  | nil => rfl
  | cons b bs ih =>
    rw [List.length_cons] at h
    rw [writeBytes, ih _ _ (by omega), read_write_other _ _ (by omega)]

/-- A run of writes inside Memory reads back. -/
theorem read_writeBytes_inside {m : Memory} (hm : wf m = true) (a : Nat) (bs : List Byte)
    (hfit : a + bs.length ≤ Config.memSize) (k : Nat) (hk : k < bs.length) :
    read (writeBytes m a bs) (a + k) = bs[k] := by
  induction bs generalizing m a k with
  | nil => simp at hk
  | cons b bs ih =>
    rw [List.length_cons] at hfit hk
    cases k with
    | zero =>
      rw [writeBytes, read_writeBytes_outside _ _ _ (by omega)]
      exact read_write_same hm (by omega) b
    | succ k =>
      have := ih (write_wf hm a b) (a + 1) (by omega) k (by omega)
      rw [writeBytes, List.getElem_cons_succ, ← this]
      congr 1; omega

/-- Loading a font keeps the canonical form. -/
theorem loadFont_wf {m : Memory} (h : wf m = true) (font : Font) : wf (loadFont m font) = true :=
  writeBytes_wf h 0 font.toList

/-- Addresses 0 to 79 hold the font that was loaded. -/
theorem read_loadFont_inside {m : Memory} (h : wf m = true) (font : Font) (k : Fin 80) :
    read (loadFont m font) k.val = font[k] := by
  simpa [loadFont] using read_writeBytes_inside h 0 font.toList (by simp [Config.memSize]) k.val (by simp)

/-- Loading a font changes nothing from address 80 up. -/
theorem read_loadFont_outside (m : Memory) (font : Font) {a : Nat} (h : 80 ≤ a) : read (loadFont m font) a = read m a :=
  read_writeBytes_outside m 0 font.toList (by simp; omega)

/-- From address 80 up an unlisted byte is 0. -/
theorem unlisted_above {a : Nat} (h : 80 ≤ a) : unlisted a = 0 := by
  unfold unlisted
  rw [List.getD_eq_default]
  exact h

/-- Writing the bytes an empty Memory already reads lists nothing. -/
theorem writeBytes_unlisted (a : Nat) (bs : List Byte) (h : ∀ k (hk : k < bs.length), bs[k] = unlisted (a + k)) :
    writeBytes [] a bs = [] := by
  induction bs generalizing a with
  | nil => rfl
  | cons b bs ih =>
    have h0 : b = unlisted a := h 0 (by simp)
    have hw : write [] a b = [] := by
      unfold write
      split
      · simp [insert, h0]
      · rfl
    rw [writeBytes, hw]
    refine ih (a + 1) fun k hk => ?_
    have := h (k + 1) (by simpa using hk)
    rw [List.getElem_cons_succ] at this
    rw [this]; congr 1; omega

/-- The default font is what unlisted addresses read as: loading it lists nothing. -/
theorem loadFont_default : loadFont [] Config.font = [] := by
  refine writeBytes_unlisted 0 _ fun k hk => ?_
  have e : Config.font.toList = Config.fontBytes := by
    show Config.fontBytes.toArray.toList = Config.fontBytes
    simp
  simp only [e, Nat.zero_add] at hk ⊢
  simp [unlisted, hk]

@[simp] theorem readBytes_length (m : Memory) (a n : Nat) : (readBytes m a n).length = n := by
  induction n generalizing a with
  | zero => rfl
  | succ n ih => simp [readBytes, ih]

theorem readBytes_getElem (m : Memory) (a n k : Nat) (hk : k < (readBytes m a n).length) :
    (readBytes m a n)[k] = read m (a + k) := by
  induction n generalizing a k with
  | zero => simp [readBytes] at hk
  | succ n ih =>
    cases k with
    | zero => rfl
    | succ k =>
      have h' : k < (readBytes m (a + 1) n).length := by simpa [readBytes] using hk
      have := ih (a + 1) k h'
      simp only [readBytes, List.getElem_cons_succ, this]
      congr 1; omega

/-- `bcdDigits` are three bytes. -/
@[simp] theorem bcdDigits_length (b : Byte) : (bcdDigits b).length = 3 := rfl

/-- The block `V[0]` to `V[x]` has `x + 1` bytes. -/
@[simp] theorem block_length (s : State) (x : RegIdx) : (s.block x).length = x.val + 1 := by
  simp [State.block]

theorem block_getElem (s : State) (x : RegIdx) (k : Nat) (hk : k < (s.block x).length) :
    (s.block x)[k] = s.readV ⟨k, by rw [block_length] at hk; omega⟩ := by
  simp [State.block, State.readV]

end Sys2Proof.Machine.Memory

namespace Sys2Proof.Machine

/-- The machine after reset is the one its default parameters give. -/
theorem State.reset_eq : State.reset = State.resetWith Config.displayWidth Config.displayHeight Config.font := by
  unfold State.reset State.resetWith
  rw [Memory.loadFont_default]

end Sys2Proof.Machine
end

