-- ==== Sys2Proof/Laws/State.lean ====
section
/-! SUPPORT. One lemma per field per named update of State, true by rfl, so that no later proof unfolds a record update. -/

namespace Sys2Proof.Machine

variable (s : State)

/-! ### writeV -/

@[simp] theorem State.writeV_mem (x : RegIdx) (b : Byte) : (s.writeV x b).mem = s.mem := rfl
@[simp] theorem State.writeV_v (x : RegIdx) (b : Byte) : (s.writeV x b).v = s.v.set x b := rfl
@[simp] theorem State.writeV_i (x : RegIdx) (b : Byte) : (s.writeV x b).i = s.i := rfl
@[simp] theorem State.writeV_pc (x : RegIdx) (b : Byte) : (s.writeV x b).pc = s.pc := rfl
@[simp] theorem State.writeV_stack (x : RegIdx) (b : Byte) : (s.writeV x b).stack = s.stack := rfl
@[simp] theorem State.writeV_depth (x : RegIdx) (b : Byte) : (s.writeV x b).depth = s.depth := rfl
@[simp] theorem State.writeV_dt (x : RegIdx) (b : Byte) : (s.writeV x b).dt = s.dt := rfl
@[simp] theorem State.writeV_st (x : RegIdx) (b : Byte) : (s.writeV x b).st = s.st := rfl
@[simp] theorem State.writeV_disp (x : RegIdx) (b : Byte) : (s.writeV x b).disp = s.disp := rfl
@[simp] theorem State.writeV_keys (x : RegIdx) (b : Byte) : (s.writeV x b).keys = s.keys := rfl
@[simp] theorem State.writeV_mode (x : RegIdx) (b : Byte) : (s.writeV x b).mode = s.mode := rfl
@[simp] theorem State.writeV_keyReg (x : RegIdx) (b : Byte) : (s.writeV x b).keyReg = s.keyReg := rfl
@[simp] theorem State.writeV_updateScreen (x : RegIdx) (b : Byte) : (s.writeV x b).updateScreen = s.updateScreen := rfl
@[simp] theorem State.writeV_faultCause (x : RegIdx) (b : Byte) : (s.writeV x b).faultCause = s.faultCause := rfl
@[simp] theorem State.writeV_faultWord (x : RegIdx) (b : Byte) : (s.writeV x b).faultWord = s.faultWord := rfl
@[simp] theorem State.writeV_romSize (x : RegIdx) (b : Byte) : (s.writeV x b).romSize = s.romSize := rfl
@[simp] theorem State.writeV_font (x : RegIdx) (b : Byte) : (s.writeV x b).font = s.font := rfl
@[simp] theorem State.writeV_rndCount (x : RegIdx) (b : Byte) : (s.writeV x b).rndCount = s.rndCount := rfl

/-! ### setPc -/

@[simp] theorem State.setPc_mem (a : Word) : (s.setPc a).mem = s.mem := rfl
@[simp] theorem State.setPc_v (a : Word) : (s.setPc a).v = s.v := rfl
@[simp] theorem State.setPc_i (a : Word) : (s.setPc a).i = s.i := rfl
@[simp] theorem State.setPc_pc (a : Word) : (s.setPc a).pc = a := rfl
@[simp] theorem State.setPc_stack (a : Word) : (s.setPc a).stack = s.stack := rfl
@[simp] theorem State.setPc_depth (a : Word) : (s.setPc a).depth = s.depth := rfl
@[simp] theorem State.setPc_dt (a : Word) : (s.setPc a).dt = s.dt := rfl
@[simp] theorem State.setPc_st (a : Word) : (s.setPc a).st = s.st := rfl
@[simp] theorem State.setPc_disp (a : Word) : (s.setPc a).disp = s.disp := rfl
@[simp] theorem State.setPc_keys (a : Word) : (s.setPc a).keys = s.keys := rfl
@[simp] theorem State.setPc_mode (a : Word) : (s.setPc a).mode = s.mode := rfl
@[simp] theorem State.setPc_keyReg (a : Word) : (s.setPc a).keyReg = s.keyReg := rfl
@[simp] theorem State.setPc_updateScreen (a : Word) : (s.setPc a).updateScreen = s.updateScreen := rfl
@[simp] theorem State.setPc_faultCause (a : Word) : (s.setPc a).faultCause = s.faultCause := rfl
@[simp] theorem State.setPc_faultWord (a : Word) : (s.setPc a).faultWord = s.faultWord := rfl
@[simp] theorem State.setPc_romSize (a : Word) : (s.setPc a).romSize = s.romSize := rfl
@[simp] theorem State.setPc_font (a : Word) : (s.setPc a).font = s.font := rfl
@[simp] theorem State.setPc_rndCount (a : Word) : (s.setPc a).rndCount = s.rndCount := rfl
@[simp] theorem State.setPc_readV (a : Word) (r : RegIdx) : (s.setPc a).readV r = s.readV r := rfl

/-! ### advance -/

@[simp] theorem State.advance_mem : s.advance.mem = s.mem := rfl
@[simp] theorem State.advance_v : s.advance.v = s.v := rfl
@[simp] theorem State.advance_i : s.advance.i = s.i := rfl
@[simp] theorem State.advance_pc : s.advance.pc = s.pc + 2 := rfl
@[simp] theorem State.advance_stack : s.advance.stack = s.stack := rfl
@[simp] theorem State.advance_depth : s.advance.depth = s.depth := rfl
@[simp] theorem State.advance_dt : s.advance.dt = s.dt := rfl
@[simp] theorem State.advance_st : s.advance.st = s.st := rfl
@[simp] theorem State.advance_disp : s.advance.disp = s.disp := rfl
@[simp] theorem State.advance_keys : s.advance.keys = s.keys := rfl
@[simp] theorem State.advance_mode : s.advance.mode = s.mode := rfl
@[simp] theorem State.advance_keyReg : s.advance.keyReg = s.keyReg := rfl
@[simp] theorem State.advance_updateScreen : s.advance.updateScreen = s.updateScreen := rfl
@[simp] theorem State.advance_faultCause : s.advance.faultCause = s.faultCause := rfl
@[simp] theorem State.advance_faultWord : s.advance.faultWord = s.faultWord := rfl
@[simp] theorem State.advance_romSize : s.advance.romSize = s.romSize := rfl
@[simp] theorem State.advance_font : s.advance.font = s.font := rfl
@[simp] theorem State.advance_rndCount : s.advance.rndCount = s.rndCount := rfl
@[simp] theorem State.advance_readV (r : RegIdx) : s.advance.readV r = s.readV r := rfl

/-! ### skipIf -/

@[simp] theorem State.skipIf_mem (c : Bool) : (s.skipIf c).mem = s.mem := rfl
@[simp] theorem State.skipIf_v (c : Bool) : (s.skipIf c).v = s.v := rfl
@[simp] theorem State.skipIf_i (c : Bool) : (s.skipIf c).i = s.i := rfl
@[simp] theorem State.skipIf_pc (c : Bool) : (s.skipIf c).pc = if c then s.pc + 4 else s.pc + 2 := rfl
@[simp] theorem State.skipIf_stack (c : Bool) : (s.skipIf c).stack = s.stack := rfl
@[simp] theorem State.skipIf_depth (c : Bool) : (s.skipIf c).depth = s.depth := rfl
@[simp] theorem State.skipIf_dt (c : Bool) : (s.skipIf c).dt = s.dt := rfl
@[simp] theorem State.skipIf_st (c : Bool) : (s.skipIf c).st = s.st := rfl
@[simp] theorem State.skipIf_disp (c : Bool) : (s.skipIf c).disp = s.disp := rfl
@[simp] theorem State.skipIf_keys (c : Bool) : (s.skipIf c).keys = s.keys := rfl
@[simp] theorem State.skipIf_mode (c : Bool) : (s.skipIf c).mode = s.mode := rfl
@[simp] theorem State.skipIf_keyReg (c : Bool) : (s.skipIf c).keyReg = s.keyReg := rfl
@[simp] theorem State.skipIf_updateScreen (c : Bool) : (s.skipIf c).updateScreen = s.updateScreen := rfl
@[simp] theorem State.skipIf_faultCause (c : Bool) : (s.skipIf c).faultCause = s.faultCause := rfl
@[simp] theorem State.skipIf_faultWord (c : Bool) : (s.skipIf c).faultWord = s.faultWord := rfl
@[simp] theorem State.skipIf_romSize (c : Bool) : (s.skipIf c).romSize = s.romSize := rfl
@[simp] theorem State.skipIf_font (c : Bool) : (s.skipIf c).font = s.font := rfl
@[simp] theorem State.skipIf_rndCount (c : Bool) : (s.skipIf c).rndCount = s.rndCount := rfl
@[simp] theorem State.skipIf_readV (c : Bool) (r : RegIdx) : (s.skipIf c).readV r = s.readV r := rfl

/-! ### setI -/

@[simp] theorem State.setI_mem (a : Word) : (s.setI a).mem = s.mem := rfl
@[simp] theorem State.setI_v (a : Word) : (s.setI a).v = s.v := rfl
@[simp] theorem State.setI_i (a : Word) : (s.setI a).i = a := rfl
@[simp] theorem State.setI_pc (a : Word) : (s.setI a).pc = s.pc := rfl
@[simp] theorem State.setI_stack (a : Word) : (s.setI a).stack = s.stack := rfl
@[simp] theorem State.setI_depth (a : Word) : (s.setI a).depth = s.depth := rfl
@[simp] theorem State.setI_dt (a : Word) : (s.setI a).dt = s.dt := rfl
@[simp] theorem State.setI_st (a : Word) : (s.setI a).st = s.st := rfl
@[simp] theorem State.setI_disp (a : Word) : (s.setI a).disp = s.disp := rfl
@[simp] theorem State.setI_keys (a : Word) : (s.setI a).keys = s.keys := rfl
@[simp] theorem State.setI_mode (a : Word) : (s.setI a).mode = s.mode := rfl
@[simp] theorem State.setI_keyReg (a : Word) : (s.setI a).keyReg = s.keyReg := rfl
@[simp] theorem State.setI_updateScreen (a : Word) : (s.setI a).updateScreen = s.updateScreen := rfl
@[simp] theorem State.setI_faultCause (a : Word) : (s.setI a).faultCause = s.faultCause := rfl
@[simp] theorem State.setI_faultWord (a : Word) : (s.setI a).faultWord = s.faultWord := rfl
@[simp] theorem State.setI_romSize (a : Word) : (s.setI a).romSize = s.romSize := rfl
@[simp] theorem State.setI_font (a : Word) : (s.setI a).font = s.font := rfl
@[simp] theorem State.setI_rndCount (a : Word) : (s.setI a).rndCount = s.rndCount := rfl
@[simp] theorem State.setI_readV (a : Word) (r : RegIdx) : (s.setI a).readV r = s.readV r := rfl

/-! ### setDT -/

@[simp] theorem State.setDT_mem (b : Byte) : (s.setDT b).mem = s.mem := rfl
@[simp] theorem State.setDT_v (b : Byte) : (s.setDT b).v = s.v := rfl
@[simp] theorem State.setDT_i (b : Byte) : (s.setDT b).i = s.i := rfl
@[simp] theorem State.setDT_pc (b : Byte) : (s.setDT b).pc = s.pc := rfl
@[simp] theorem State.setDT_stack (b : Byte) : (s.setDT b).stack = s.stack := rfl
@[simp] theorem State.setDT_depth (b : Byte) : (s.setDT b).depth = s.depth := rfl
@[simp] theorem State.setDT_dt (b : Byte) : (s.setDT b).dt = b := rfl
@[simp] theorem State.setDT_st (b : Byte) : (s.setDT b).st = s.st := rfl
@[simp] theorem State.setDT_disp (b : Byte) : (s.setDT b).disp = s.disp := rfl
@[simp] theorem State.setDT_keys (b : Byte) : (s.setDT b).keys = s.keys := rfl
@[simp] theorem State.setDT_mode (b : Byte) : (s.setDT b).mode = s.mode := rfl
@[simp] theorem State.setDT_keyReg (b : Byte) : (s.setDT b).keyReg = s.keyReg := rfl
@[simp] theorem State.setDT_updateScreen (b : Byte) : (s.setDT b).updateScreen = s.updateScreen := rfl
@[simp] theorem State.setDT_faultCause (b : Byte) : (s.setDT b).faultCause = s.faultCause := rfl
@[simp] theorem State.setDT_faultWord (b : Byte) : (s.setDT b).faultWord = s.faultWord := rfl
@[simp] theorem State.setDT_romSize (b : Byte) : (s.setDT b).romSize = s.romSize := rfl
@[simp] theorem State.setDT_font (b : Byte) : (s.setDT b).font = s.font := rfl
@[simp] theorem State.setDT_rndCount (b : Byte) : (s.setDT b).rndCount = s.rndCount := rfl
@[simp] theorem State.setDT_readV (b : Byte) (r : RegIdx) : (s.setDT b).readV r = s.readV r := rfl

/-! ### setST -/

@[simp] theorem State.setST_mem (b : Byte) : (s.setST b).mem = s.mem := rfl
@[simp] theorem State.setST_v (b : Byte) : (s.setST b).v = s.v := rfl
@[simp] theorem State.setST_i (b : Byte) : (s.setST b).i = s.i := rfl
@[simp] theorem State.setST_pc (b : Byte) : (s.setST b).pc = s.pc := rfl
@[simp] theorem State.setST_stack (b : Byte) : (s.setST b).stack = s.stack := rfl
@[simp] theorem State.setST_depth (b : Byte) : (s.setST b).depth = s.depth := rfl
@[simp] theorem State.setST_dt (b : Byte) : (s.setST b).dt = s.dt := rfl
@[simp] theorem State.setST_st (b : Byte) : (s.setST b).st = b := rfl
@[simp] theorem State.setST_disp (b : Byte) : (s.setST b).disp = s.disp := rfl
@[simp] theorem State.setST_keys (b : Byte) : (s.setST b).keys = s.keys := rfl
@[simp] theorem State.setST_mode (b : Byte) : (s.setST b).mode = s.mode := rfl
@[simp] theorem State.setST_keyReg (b : Byte) : (s.setST b).keyReg = s.keyReg := rfl
@[simp] theorem State.setST_updateScreen (b : Byte) : (s.setST b).updateScreen = s.updateScreen := rfl
@[simp] theorem State.setST_faultCause (b : Byte) : (s.setST b).faultCause = s.faultCause := rfl
@[simp] theorem State.setST_faultWord (b : Byte) : (s.setST b).faultWord = s.faultWord := rfl
@[simp] theorem State.setST_romSize (b : Byte) : (s.setST b).romSize = s.romSize := rfl
@[simp] theorem State.setST_font (b : Byte) : (s.setST b).font = s.font := rfl
@[simp] theorem State.setST_rndCount (b : Byte) : (s.setST b).rndCount = s.rndCount := rfl
@[simp] theorem State.setST_readV (b : Byte) (r : RegIdx) : (s.setST b).readV r = s.readV r := rfl

/-! ### setMem -/

@[simp] theorem State.setMem_mem (m : Memory) : (s.setMem m).mem = m := rfl
@[simp] theorem State.setMem_v (m : Memory) : (s.setMem m).v = s.v := rfl
@[simp] theorem State.setMem_i (m : Memory) : (s.setMem m).i = s.i := rfl
@[simp] theorem State.setMem_pc (m : Memory) : (s.setMem m).pc = s.pc := rfl
@[simp] theorem State.setMem_stack (m : Memory) : (s.setMem m).stack = s.stack := rfl
@[simp] theorem State.setMem_depth (m : Memory) : (s.setMem m).depth = s.depth := rfl
@[simp] theorem State.setMem_dt (m : Memory) : (s.setMem m).dt = s.dt := rfl
@[simp] theorem State.setMem_st (m : Memory) : (s.setMem m).st = s.st := rfl
@[simp] theorem State.setMem_disp (m : Memory) : (s.setMem m).disp = s.disp := rfl
@[simp] theorem State.setMem_keys (m : Memory) : (s.setMem m).keys = s.keys := rfl
@[simp] theorem State.setMem_mode (m : Memory) : (s.setMem m).mode = s.mode := rfl
@[simp] theorem State.setMem_keyReg (m : Memory) : (s.setMem m).keyReg = s.keyReg := rfl
@[simp] theorem State.setMem_updateScreen (m : Memory) : (s.setMem m).updateScreen = s.updateScreen := rfl
@[simp] theorem State.setMem_faultCause (m : Memory) : (s.setMem m).faultCause = s.faultCause := rfl
@[simp] theorem State.setMem_faultWord (m : Memory) : (s.setMem m).faultWord = s.faultWord := rfl
@[simp] theorem State.setMem_romSize (m : Memory) : (s.setMem m).romSize = s.romSize := rfl
@[simp] theorem State.setMem_font (m : Memory) : (s.setMem m).font = s.font := rfl
@[simp] theorem State.setMem_rndCount (m : Memory) : (s.setMem m).rndCount = s.rndCount := rfl
@[simp] theorem State.setMem_readV (m : Memory) (r : RegIdx) : (s.setMem m).readV r = s.readV r := rfl

/-! ### redraw -/

@[simp] theorem State.redraw_mem (d : Display) : (s.redraw d).mem = s.mem := rfl
@[simp] theorem State.redraw_v (d : Display) : (s.redraw d).v = s.v := rfl
@[simp] theorem State.redraw_i (d : Display) : (s.redraw d).i = s.i := rfl
@[simp] theorem State.redraw_pc (d : Display) : (s.redraw d).pc = s.pc := rfl
@[simp] theorem State.redraw_stack (d : Display) : (s.redraw d).stack = s.stack := rfl
@[simp] theorem State.redraw_depth (d : Display) : (s.redraw d).depth = s.depth := rfl
@[simp] theorem State.redraw_dt (d : Display) : (s.redraw d).dt = s.dt := rfl
@[simp] theorem State.redraw_st (d : Display) : (s.redraw d).st = s.st := rfl
@[simp] theorem State.redraw_disp (d : Display) : (s.redraw d).disp = d := rfl
@[simp] theorem State.redraw_keys (d : Display) : (s.redraw d).keys = s.keys := rfl
@[simp] theorem State.redraw_mode (d : Display) : (s.redraw d).mode = s.mode := rfl
@[simp] theorem State.redraw_keyReg (d : Display) : (s.redraw d).keyReg = s.keyReg := rfl
@[simp] theorem State.redraw_updateScreen (d : Display) : (s.redraw d).updateScreen = true := rfl
@[simp] theorem State.redraw_faultCause (d : Display) : (s.redraw d).faultCause = s.faultCause := rfl
@[simp] theorem State.redraw_faultWord (d : Display) : (s.redraw d).faultWord = s.faultWord := rfl
@[simp] theorem State.redraw_romSize (d : Display) : (s.redraw d).romSize = s.romSize := rfl
@[simp] theorem State.redraw_font (d : Display) : (s.redraw d).font = s.font := rfl
@[simp] theorem State.redraw_rndCount (d : Display) : (s.redraw d).rndCount = s.rndCount := rfl
@[simp] theorem State.redraw_readV (d : Display) (r : RegIdx) : (s.redraw d).readV r = s.readV r := rfl

/-! ### takeRnd -/

@[simp] theorem State.takeRnd_mem : s.takeRnd.mem = s.mem := rfl
@[simp] theorem State.takeRnd_v : s.takeRnd.v = s.v := rfl
@[simp] theorem State.takeRnd_i : s.takeRnd.i = s.i := rfl
@[simp] theorem State.takeRnd_pc : s.takeRnd.pc = s.pc := rfl
@[simp] theorem State.takeRnd_stack : s.takeRnd.stack = s.stack := rfl
@[simp] theorem State.takeRnd_depth : s.takeRnd.depth = s.depth := rfl
@[simp] theorem State.takeRnd_dt : s.takeRnd.dt = s.dt := rfl
@[simp] theorem State.takeRnd_st : s.takeRnd.st = s.st := rfl
@[simp] theorem State.takeRnd_disp : s.takeRnd.disp = s.disp := rfl
@[simp] theorem State.takeRnd_keys : s.takeRnd.keys = s.keys := rfl
@[simp] theorem State.takeRnd_mode : s.takeRnd.mode = s.mode := rfl
@[simp] theorem State.takeRnd_keyReg : s.takeRnd.keyReg = s.keyReg := rfl
@[simp] theorem State.takeRnd_updateScreen : s.takeRnd.updateScreen = s.updateScreen := rfl
@[simp] theorem State.takeRnd_faultCause : s.takeRnd.faultCause = s.faultCause := rfl
@[simp] theorem State.takeRnd_faultWord : s.takeRnd.faultWord = s.faultWord := rfl
@[simp] theorem State.takeRnd_romSize : s.takeRnd.romSize = s.romSize := rfl
@[simp] theorem State.takeRnd_font : s.takeRnd.font = s.font := rfl
@[simp] theorem State.takeRnd_rndCount : s.takeRnd.rndCount = s.rndCount + 1 := rfl
@[simp] theorem State.takeRnd_readV (r : RegIdx) : s.takeRnd.readV r = s.readV r := rfl

/-! ### armWait -/

@[simp] theorem State.armWait_mem (x : RegIdx) : (s.armWait x).mem = s.mem := rfl
@[simp] theorem State.armWait_v (x : RegIdx) : (s.armWait x).v = s.v := rfl
@[simp] theorem State.armWait_i (x : RegIdx) : (s.armWait x).i = s.i := rfl
@[simp] theorem State.armWait_pc (x : RegIdx) : (s.armWait x).pc = s.pc := rfl
@[simp] theorem State.armWait_stack (x : RegIdx) : (s.armWait x).stack = s.stack := rfl
@[simp] theorem State.armWait_depth (x : RegIdx) : (s.armWait x).depth = s.depth := rfl
@[simp] theorem State.armWait_dt (x : RegIdx) : (s.armWait x).dt = s.dt := rfl
@[simp] theorem State.armWait_st (x : RegIdx) : (s.armWait x).st = s.st := rfl
@[simp] theorem State.armWait_disp (x : RegIdx) : (s.armWait x).disp = s.disp := rfl
@[simp] theorem State.armWait_keys (x : RegIdx) : (s.armWait x).keys = s.keys := rfl
@[simp] theorem State.armWait_mode (x : RegIdx) : (s.armWait x).mode = .waitingForKey := rfl
@[simp] theorem State.armWait_keyReg (x : RegIdx) : (s.armWait x).keyReg = x := rfl
@[simp] theorem State.armWait_updateScreen (x : RegIdx) : (s.armWait x).updateScreen = s.updateScreen := rfl
@[simp] theorem State.armWait_faultCause (x : RegIdx) : (s.armWait x).faultCause = s.faultCause := rfl
@[simp] theorem State.armWait_faultWord (x : RegIdx) : (s.armWait x).faultWord = s.faultWord := rfl
@[simp] theorem State.armWait_romSize (x : RegIdx) : (s.armWait x).romSize = s.romSize := rfl
@[simp] theorem State.armWait_font (x : RegIdx) : (s.armWait x).font = s.font := rfl
@[simp] theorem State.armWait_rndCount (x : RegIdx) : (s.armWait x).rndCount = s.rndCount := rfl
@[simp] theorem State.armWait_readV (x : RegIdx) (r : RegIdx) : (s.armWait x).readV r = s.readV r := rfl

/-! ### raise -/

@[simp] theorem State.raise_mem (c : FaultCause) (w : Word) : (s.raise c w).mem = s.mem := rfl
@[simp] theorem State.raise_v (c : FaultCause) (w : Word) : (s.raise c w).v = s.v := rfl
@[simp] theorem State.raise_i (c : FaultCause) (w : Word) : (s.raise c w).i = s.i := rfl
@[simp] theorem State.raise_pc (c : FaultCause) (w : Word) : (s.raise c w).pc = s.pc := rfl
@[simp] theorem State.raise_stack (c : FaultCause) (w : Word) : (s.raise c w).stack = s.stack := rfl
@[simp] theorem State.raise_depth (c : FaultCause) (w : Word) : (s.raise c w).depth = s.depth := rfl
@[simp] theorem State.raise_dt (c : FaultCause) (w : Word) : (s.raise c w).dt = s.dt := rfl
@[simp] theorem State.raise_st (c : FaultCause) (w : Word) : (s.raise c w).st = s.st := rfl
@[simp] theorem State.raise_disp (c : FaultCause) (w : Word) : (s.raise c w).disp = s.disp := rfl
@[simp] theorem State.raise_keys (c : FaultCause) (w : Word) : (s.raise c w).keys = s.keys := rfl
@[simp] theorem State.raise_mode (c : FaultCause) (w : Word) : (s.raise c w).mode = .halted := rfl
@[simp] theorem State.raise_keyReg (c : FaultCause) (w : Word) : (s.raise c w).keyReg = s.keyReg := rfl
@[simp] theorem State.raise_updateScreen (c : FaultCause) (w : Word) : (s.raise c w).updateScreen = s.updateScreen := rfl
@[simp] theorem State.raise_faultCause (c : FaultCause) (w : Word) : (s.raise c w).faultCause = c := rfl
@[simp] theorem State.raise_faultWord (c : FaultCause) (w : Word) : (s.raise c w).faultWord = w := rfl
@[simp] theorem State.raise_romSize (c : FaultCause) (w : Word) : (s.raise c w).romSize = s.romSize := rfl
@[simp] theorem State.raise_font (c : FaultCause) (w : Word) : (s.raise c w).font = s.font := rfl
@[simp] theorem State.raise_rndCount (c : FaultCause) (w : Word) : (s.raise c w).rndCount = s.rndCount := rfl
@[simp] theorem State.raise_readV (c : FaultCause) (w : Word) (r : RegIdx) : (s.raise c w).readV r = s.readV r := rfl

/-! ### tick -/

@[simp] theorem State.tick_mem : s.tick.mem = s.mem := rfl
@[simp] theorem State.tick_v : s.tick.v = s.v := rfl
@[simp] theorem State.tick_i : s.tick.i = s.i := rfl
@[simp] theorem State.tick_pc : s.tick.pc = s.pc := rfl
@[simp] theorem State.tick_stack : s.tick.stack = s.stack := rfl
@[simp] theorem State.tick_depth : s.tick.depth = s.depth := rfl
@[simp] theorem State.tick_dt : s.tick.dt = countDown s.dt := rfl
@[simp] theorem State.tick_st : s.tick.st = countDown s.st := rfl
@[simp] theorem State.tick_disp : s.tick.disp = s.disp := rfl
@[simp] theorem State.tick_keys : s.tick.keys = s.keys := rfl
@[simp] theorem State.tick_mode : s.tick.mode = s.mode := rfl
@[simp] theorem State.tick_keyReg : s.tick.keyReg = s.keyReg := rfl
@[simp] theorem State.tick_updateScreen : s.tick.updateScreen = s.updateScreen := rfl
@[simp] theorem State.tick_faultCause : s.tick.faultCause = s.faultCause := rfl
@[simp] theorem State.tick_faultWord : s.tick.faultWord = s.faultWord := rfl
@[simp] theorem State.tick_romSize : s.tick.romSize = s.romSize := rfl
@[simp] theorem State.tick_font : s.tick.font = s.font := rfl
@[simp] theorem State.tick_rndCount : s.tick.rndCount = s.rndCount := rfl
@[simp] theorem State.tick_readV (r : RegIdx) : s.tick.readV r = s.readV r := rfl

/-! ### resume -/

@[simp] theorem State.resume_mem : s.resume.mem = s.mem := rfl
@[simp] theorem State.resume_v : s.resume.v = s.v := rfl
@[simp] theorem State.resume_i : s.resume.i = s.i := rfl
@[simp] theorem State.resume_pc : s.resume.pc = s.pc := rfl
@[simp] theorem State.resume_stack : s.resume.stack = s.stack := rfl
@[simp] theorem State.resume_depth : s.resume.depth = s.depth := rfl
@[simp] theorem State.resume_dt : s.resume.dt = s.dt := rfl
@[simp] theorem State.resume_st : s.resume.st = s.st := rfl
@[simp] theorem State.resume_disp : s.resume.disp = s.disp := rfl
@[simp] theorem State.resume_keys : s.resume.keys = s.keys := rfl
@[simp] theorem State.resume_mode : s.resume.mode = .running := rfl
@[simp] theorem State.resume_keyReg : s.resume.keyReg = s.keyReg := rfl
@[simp] theorem State.resume_updateScreen : s.resume.updateScreen = s.updateScreen := rfl
@[simp] theorem State.resume_faultCause : s.resume.faultCause = s.faultCause := rfl
@[simp] theorem State.resume_faultWord : s.resume.faultWord = s.faultWord := rfl
@[simp] theorem State.resume_romSize : s.resume.romSize = s.romSize := rfl
@[simp] theorem State.resume_font : s.resume.font = s.font := rfl
@[simp] theorem State.resume_rndCount : s.resume.rndCount = s.rndCount := rfl
@[simp] theorem State.resume_readV (r : RegIdx) : s.resume.readV r = s.readV r := rfl

/-! ### loadV -/

@[simp] theorem State.loadV_mem (x : RegIdx) : (s.loadV x).mem = s.mem := rfl
@[simp] theorem State.loadV_i (x : RegIdx) : (s.loadV x).i = s.i := rfl
@[simp] theorem State.loadV_pc (x : RegIdx) : (s.loadV x).pc = s.pc := rfl
@[simp] theorem State.loadV_stack (x : RegIdx) : (s.loadV x).stack = s.stack := rfl
@[simp] theorem State.loadV_depth (x : RegIdx) : (s.loadV x).depth = s.depth := rfl
@[simp] theorem State.loadV_dt (x : RegIdx) : (s.loadV x).dt = s.dt := rfl
@[simp] theorem State.loadV_st (x : RegIdx) : (s.loadV x).st = s.st := rfl
@[simp] theorem State.loadV_disp (x : RegIdx) : (s.loadV x).disp = s.disp := rfl
@[simp] theorem State.loadV_keys (x : RegIdx) : (s.loadV x).keys = s.keys := rfl
@[simp] theorem State.loadV_mode (x : RegIdx) : (s.loadV x).mode = s.mode := rfl
@[simp] theorem State.loadV_keyReg (x : RegIdx) : (s.loadV x).keyReg = s.keyReg := rfl
@[simp] theorem State.loadV_updateScreen (x : RegIdx) : (s.loadV x).updateScreen = s.updateScreen := rfl
@[simp] theorem State.loadV_faultCause (x : RegIdx) : (s.loadV x).faultCause = s.faultCause := rfl
@[simp] theorem State.loadV_faultWord (x : RegIdx) : (s.loadV x).faultWord = s.faultWord := rfl
@[simp] theorem State.loadV_romSize (x : RegIdx) : (s.loadV x).romSize = s.romSize := rfl
@[simp] theorem State.loadV_font (x : RegIdx) : (s.loadV x).font = s.font := rfl
@[simp] theorem State.loadV_rndCount (x : RegIdx) : (s.loadV x).rndCount = s.rndCount := rfl

/-! ### Registers -/

/-- A register reads back what was written to it and no other register changes. -/
@[simp] theorem State.writeV_readV (x : RegIdx) (b : Byte) (r : RegIdx) :
    (s.writeV x b).readV r = if r = x then b else s.readV r := by
  simp only [State.readV, State.writeV, Fin.getElem_fin, Vector.getElem_set, Fin.ext_iff, eq_comm]

/-- `V[0]` to `V[x]` come from Memory, the others stay. -/
@[simp] theorem State.loadV_readV (x r : RegIdx) :
    (s.loadV x).readV r = if r ≤ x then Memory.read s.mem (s.i.toNat + r.val) else s.readV r := by
  simp [State.readV, State.loadV]

end Sys2Proof.Machine
end

