-- ==== Sys2Proof/Laws/Ops.lean ====
section
/-! SUPPORT. For each shared operation one lemma that says everything it can do; the provers cite these instead of unfolding the operation. -/

namespace Sys2Proof.Machine

/-! ### The call stack -/

/-- A push fails exactly on a full stack. -/
theorem State.push_eq_none {s : State} {a : Word} : s.push a = none ↔ s.depth.val = 16 := by
  have := s.depth.isLt
  unfold State.push
  split <;> simp <;> omega

/-- What a push that succeeds does. -/
theorem State.push_eq_some {s t : State} {a : Word} (h : s.push a = some t) :
    ∃ hd : s.depth.val < 16,
      t = { s with stack := s.stack.set s.depth.val a, depth := ⟨s.depth.val + 1, by omega⟩ } := by
  unfold State.push at h
  split at h
  · next hd => exact ⟨hd, (Option.some.inj h).symm⟩
  · simp at h

/-- A pop fails exactly on an empty stack. -/
theorem State.pop_eq_none {s : State} : s.pop = none ↔ s.depth.val = 0 := by
  unfold State.pop
  split <;> simp <;> omega

/-- What a pop that succeeds does. -/
theorem State.pop_eq_some {s t : State} {a : Word} (h : s.pop = some (a, t)) :
    ∃ hd : 0 < s.depth.val,
      a = s.stack[s.depth.val - 1]'(by omega) ∧ t = { s with depth := ⟨s.depth.val - 1, by omega⟩ } := by
  unfold State.pop at h
  split at h
  · next hd =>
    have := Prod.mk.inj (Option.some.inj h)
    exact ⟨hd, this.1.symm, this.2.symm⟩
  · simp at h

/-! ### Bounds -/

/-- A data access of `n` bytes at `I` spills when it is not empty and its last byte lies above 4095. -/
theorem State.spills_iff {s : State} {n : Nat} : s.spills n = true ↔ 1 ≤ n ∧ 4095 < s.i.toNat + n - 1 := by
  simp [State.spills]

/-- What a bounded access answers. -/
theorem State.within_cases {s t u : State} {n : Nat} (h : s.within n t = .next u) :
    (s.spills n = true ∧ u = s.raise .memoryOutOfBounds 0) ∨ (s.spills n = false ∧ u = t) := by
  unfold State.within at h
  split at h
  · next hs => exact .inl ⟨hs, by cases h; rfl⟩
  · next hs => exact .inr ⟨by simpa using hs, by cases h; rfl⟩

/-! ### Keys -/

/-- A register that holds a key number. -/
theorem State.keyDown_eq_some {s : State} {k : Byte} (h : k.toNat < 16) :
    s.keyDown k = some (s.keys[(⟨k.toNat, h⟩ : RegIdx)]) := by
  simp [State.keyDown, h]

/-- A register that holds no key number. -/
theorem State.keyDown_eq_none {s : State} {k : Byte} : s.keyDown k = none ↔ 15 < k.toNat := by
  unfold State.keyDown
  split <;> simp <;> omega

/-- What a skip on a key answers. -/
theorem State.skipOnKey_cases {s u : State} {x : RegIdx} {want : Bool} (h : s.skipOnKey x want = .next u) :
    (15 < (s.readV x).toNat ∧ u = s.raise .keyIndexOutOfRange 0) ∨
      ∃ hk : (s.readV x).toNat < 16, u = s.skipIf (s.keys[(⟨(s.readV x).toNat, hk⟩ : RegIdx)] == want) := by
  unfold State.skipOnKey at h
  by_cases hk : (s.readV x).toNat < 16
  · rw [State.keyDown_eq_some hk] at h
    exact .inr ⟨hk, by cases h; rfl⟩
  · rw [State.keyDown_eq_none.2 (by omega)] at h
    exact .inl ⟨by omega, by cases h; rfl⟩

/-- No key is found exactly when none is down. -/
theorem State.pressedKey_eq_none {s : State} : s.pressedKey = none ↔ ∀ k : RegIdx, s.keys[k] = false := by
  simp [State.pressedKey, List.find?_eq_none]

/-- The key found is down, and every smaller one is up. -/
theorem State.pressedKey_eq_some {s : State} {k : RegIdx} :
    s.pressedKey = some k ↔ s.keys[k] = true ∧ ∀ j < k, s.keys[j] = false := by
  unfold State.pressedKey
  rw [List.find?_eq_some_iff_getElem]
  constructor
  · rintro ⟨hk, n, hn, e, hb⟩
    refine ⟨hk, fun j hj => ?_⟩
    have hn' : n < 16 := by simpa using hn
    have e' : (⟨n, hn'⟩ : Fin 16) = k := by simpa using e
    subst e'
    have := hb j.val hj
    simpa using this
  · rintro ⟨hk, hb⟩
    refine ⟨hk, k.val, by simp, by simp, fun j hj => ?_⟩
    have := hb ⟨j, by omega⟩ hj
    simpa using this

/-- What a Step in WaitingForKey does (R93). -/
theorem State.pollKeys_cases (s : State) :
    ((∀ k : RegIdx, s.keys[k] = false) ∧ s.pollKeys = s) ∨
      ∃ k : RegIdx, s.keys[k] = true ∧ (∀ j < k, s.keys[j] = false) ∧
        s.pollKeys = (s.writeV s.keyReg (BitVec.ofNat 8 k.val)).resume := by
  unfold State.pollKeys
  cases h : s.pressedKey with
  | none => exact .inl ⟨State.pressedKey_eq_none.1 h, rfl⟩
  | some k =>
    have := State.pressedKey_eq_some.1 h
    exact .inr ⟨k, this.1, this.2, rfl⟩

/-! ### The Step -/

/-- The fetch fails exactly when its second byte would lie outside Memory (R94). -/
theorem State.fetch_eq_none {s : State} : s.fetch = none ↔ 4094 < s.pc.toNat := by
  simp [State.fetch]

/-- The bytes a fetch reads (R94). -/
theorem State.fetch_eq_some {s : State} (h : s.pc.toNat ≤ 4094) :
    s.fetch = some (Memory.read s.mem s.pc.toNat, Memory.read s.mem (s.pc.toNat + 1)) := by
  simp [State.fetch, h]

/-- A fetch that succeeds was inside Memory. -/
theorem State.pc_le_of_fetch {s : State} {p : Byte × Byte} (h : s.fetch = some p) : s.pc.toNat ≤ 4094 := by
  by_contra hc
  rw [State.fetch_eq_none.2 (by omega)] at h
  simp at h

/-- A timer goes down by one and stops at 0. -/
@[simp] theorem countDown_toNat (t : Byte) : (countDown t).toNat = t.toNat - 1 := by
  unfold countDown
  split
  · next h => subst h; rfl
  · next h =>
    have : t.toNat ≠ 0 := fun e => h (BitVec.eq_of_toNat_eq e)
    rw [BitVec.toNat_sub]
    have := t.isLt
    simp
    omega

/-- The end of the Step of an instruction that raised a fault. -/
theorem State.retire_halted {s : State} (h : s.mode = .halted) : s.retire = s := by simp [State.retire, h]

/-- The end of the Step of an instruction that completed. -/
theorem State.retire_completed {s : State} (h : s.mode ≠ .halted) : s.retire = s.tick := by simp [State.retire, h]

/-- Everything a Step can do (R100). -/
theorem step_cases {s t : State} (h : step s = .next t) :
    (s.mode = .halted ∧ t = s) ∨ (s.mode = .waitingForKey ∧ t = s.pollKeys) ∨
      (s.mode = .running ∧
        ((s.fetch = none ∧ t = s.raise .memoryOutOfBounds 0) ∨
          ∃ hi lo, s.fetch = some (hi, lo) ∧
            ((∃ e, decodeBytes hi lo = .error e ∧ t = s.raise .unimplementedOpcode (bigEndian hi lo)) ∨
              ∃ i u, decodeBytes hi lo = .ok i ∧ exec i s = .next u ∧ t = u.retire))) := by
  unfold step at h
  cases hm : s.mode with
  | halted => rw [hm] at h; cases h; exact .inl ⟨rfl, rfl⟩
  | waitingForKey => rw [hm] at h; cases h; exact .inr (.inl ⟨rfl, rfl⟩)
  | running =>
    rw [hm] at h
    refine .inr (.inr ⟨rfl, ?_⟩)
    simp only [State.cycle] at h
    cases hf : s.fetch with
    | none => rw [hf] at h; cases h; exact .inl ⟨rfl, rfl⟩
    | some p =>
      obtain ⟨hi, lo⟩ := p
      rw [hf] at h
      refine .inr ⟨hi, lo, rfl, ?_⟩
      simp only [State.runBytes] at h
      cases hd : decodeBytes hi lo with
      | error e => rw [hd] at h; cases h; exact .inl ⟨e, rfl, rfl⟩
      | ok i =>
        rw [hd] at h
        refine .inr ⟨i, ?_⟩
        simp only at h
        cases he : exec i s with
        | next u => rw [he] at h; cases h; exact ⟨u, rfl, rfl, rfl⟩
        | fault r => exact nomatch r
        | refused r => rw [he] at h; cases h

end Sys2Proof.Machine
end

