-- ==== Sys2Proof/Laws/PerInstr.lean ====
section
/-! SUPPORT. Facts about the syntax of every instruction, one lemma per constructor. Family OpcodeRow: the word of an instruction is selected by the instruction's own row of the opcode map (30_encoding.md R75). -/

namespace Sys2Proof.Laws.OpcodeRow

/-- The encoded word matches the instruction's row. -/
def Statement (i : Instr) : Prop := encode i &&& i.row.mask = i.row.value

theorem of_NNN (op : BitVec 4) (nnn : Addr12) : packNNN op nnn &&& 0xF000 = packNNN op 0 := by
  rw [and_F000, fieldOp_packNNN]

theorem of_XKK (op : BitVec 4) (x : RegIdx) (kk : Byte) : packXKK op x kk &&& 0xF000 = packNNN op 0 := by
  rw [and_F000, fieldOp_packXKK]

theorem of_XYN (op : BitVec 4) (x y : RegIdx) (n : BitVec 4) : packXYN op x y n &&& 0xF000 = packNNN op 0 := by
  rw [and_F000, fieldOp_packXYN]

theorem of_XY (op : BitVec 4) (x y : RegIdx) (n : BitVec 4) : packXYN op x y n &&& 0xF00F = packXYN op 0 0 n := by
  rw [and_F00F, fieldOp_packXYN, fieldN_packXYN]

theorem of_X (op : BitVec 4) (x : RegIdx) (kk : Byte) : packXKK op x kk &&& 0xF0FF = packXKK op 0 kk := by
  rw [and_F0FF, fieldOp_packXKK, fieldKK_packXKK]

theorem cls : Statement .cls := and_FFFF _
theorem ret : Statement .ret := and_FFFF _
theorem jp (nnn : Addr12) : Statement (.jp nnn) := of_NNN _ nnn
theorem call (nnn : Addr12) : Statement (.call nnn) := of_NNN _ nnn
theorem seImm (x : RegIdx) (kk : Byte) : Statement (.seImm x kk) := of_XKK _ x kk
theorem sneImm (x : RegIdx) (kk : Byte) : Statement (.sneImm x kk) := of_XKK _ x kk
theorem seReg (x y : RegIdx) : Statement (.seReg x y) := of_XY _ x y _
theorem ldImm (x : RegIdx) (kk : Byte) : Statement (.ldImm x kk) := of_XKK _ x kk
theorem addImm (x : RegIdx) (kk : Byte) : Statement (.addImm x kk) := of_XKK _ x kk
theorem ldReg (x y : RegIdx) : Statement (.ldReg x y) := of_XY _ x y _
theorem orReg (x y : RegIdx) : Statement (.orReg x y) := of_XY _ x y _
theorem andReg (x y : RegIdx) : Statement (.andReg x y) := of_XY _ x y _
theorem xorReg (x y : RegIdx) : Statement (.xorReg x y) := of_XY _ x y _
theorem addReg (x y : RegIdx) : Statement (.addReg x y) := of_XY _ x y _
theorem subReg (x y : RegIdx) : Statement (.subReg x y) := of_XY _ x y _
theorem shr (x y : RegIdx) : Statement (.shr x y) := of_XY _ x y _
theorem stub7 (x y : RegIdx) : Statement (.stub7 x y) := of_XY _ x y _
theorem stubE (x y : RegIdx) : Statement (.stubE x y) := of_XY _ x y _
theorem sneReg (x y : RegIdx) : Statement (.sneReg x y) := of_XY _ x y _
theorem ldI (nnn : Addr12) : Statement (.ldI nnn) := of_NNN _ nnn
theorem jpV0 (nnn : Addr12) : Statement (.jpV0 nnn) := of_NNN _ nnn
theorem rnd (x : RegIdx) (kk : Byte) : Statement (.rnd x kk) := of_XKK _ x kk
theorem drw (x y : RegIdx) (n : Nat) : Statement (.drw x y n) := of_XYN _ x y _
theorem skp (x : RegIdx) : Statement (.skp x) := of_X _ x _
theorem sknp (x : RegIdx) : Statement (.sknp x) := of_X _ x _
theorem ldVxDT (x : RegIdx) : Statement (.ldVxDT x) := of_X _ x _
theorem ldVxK (x : RegIdx) : Statement (.ldVxK x) := of_X _ x _
theorem ldDTVx (x : RegIdx) : Statement (.ldDTVx x) := of_X _ x _
theorem ldSTVx (x : RegIdx) : Statement (.ldSTVx x) := of_X _ x _
theorem addI (x : RegIdx) : Statement (.addI x) := of_X _ x _
theorem ldF (x : RegIdx) : Statement (.ldF x) := of_X _ x _
theorem ldB (x : RegIdx) : Statement (.ldB x) := of_X _ x _
theorem storeRegs (x : RegIdx) : Statement (.storeRegs x) := of_X _ x _
theorem loadRegs (x : RegIdx) : Statement (.loadRegs x) := of_X _ x _

end Sys2Proof.Laws.OpcodeRow
end

