-- ==== Sys2Proof/Tests/Slice0.lean ====
section
/-! SUPPORT. The model's own tests: the well-formedness smoke, words written out from the encodings of the spec, one-step vectors of 95_test_vectors.md (each named by its identifier there), and for every obligation with hypotheses a state that meets them. -/

namespace Sys2Proof.Tests

open Sys2Proof.Machine Sys2Proof.Claims

/-! ### Well-formedness -/

theorem test_illformed_rows : Instr.wellFormed (.drw 0 0 16) = false := by decide
theorem test_wellformed_rows : Instr.wellFormed (.drw 0 0 15) = true := by decide

/-! ### Decoding: every constructor, its word written out from 30_encoding.md section 3 -/

theorem test_decode_cls : decodeTableWord 16 0b0000000011100000 = some (.cls) := by decide
theorem test_decode_ret : decodeTableWord 16 0b0000000011101110 = some (.ret) := by decide
theorem test_decode_jp : decodeTableWord 16 0b0001001000000110 = some (.jp 0x206) := by decide
theorem test_decode_call : decodeTableWord 16 0b0010001000001000 = some (.call 0x208) := by decide
theorem test_decode_seImm : decodeTableWord 16 0b0011001100101010 = some (.seImm 3 0x2A) := by decide
theorem test_decode_sneImm : decodeTableWord 16 0b0100001100101010 = some (.sneImm 3 0x2A) := by decide
theorem test_decode_seReg : decodeTableWord 16 0b0101000100100000 = some (.seReg 1 2) := by decide
theorem test_decode_ldImm : decodeTableWord 16 0b0110111110101011 = some (.ldImm 15 0xAB) := by decide
theorem test_decode_addImm : decodeTableWord 16 0b0111000000000001 = some (.addImm 0 1) := by decide
theorem test_decode_ldReg : decodeTableWord 16 0b1000000100100000 = some (.ldReg 1 2) := by decide
theorem test_decode_orReg : decodeTableWord 16 0b1000000100100001 = some (.orReg 1 2) := by decide
theorem test_decode_andReg : decodeTableWord 16 0b1000000100100010 = some (.andReg 1 2) := by decide
theorem test_decode_xorReg : decodeTableWord 16 0b1000000100100011 = some (.xorReg 1 2) := by decide
theorem test_decode_addReg : decodeTableWord 16 0b1000111100010100 = some (.addReg 15 1) := by decide
theorem test_decode_subReg : decodeTableWord 16 0b1000000111110101 = some (.subReg 1 15) := by decide
theorem test_decode_shr : decodeTableWord 16 0b1000000010100110 = some (.shr 0 10) := by decide
theorem test_decode_stub7 : decodeTableWord 16 0b1000000100100111 = some (.stub7 1 2) := by decide
theorem test_decode_stubE : decodeTableWord 16 0b1000000100101110 = some (.stubE 1 2) := by decide
theorem test_decode_sneReg : decodeTableWord 16 0b1001000100100000 = some (.sneReg 1 2) := by decide
theorem test_decode_ldI : decodeTableWord 16 0b1010001011101010 = some (.ldI 0x2EA) := by decide
theorem test_decode_jpV0 : decodeTableWord 16 0b1011001100000000 = some (.jpV0 0x300) := by decide
theorem test_decode_rnd : decodeTableWord 16 0b1100000100001111 = some (.rnd 1 0x0F) := by decide
theorem test_decode_drw : decodeTableWord 16 0b1101000000010010 = some (.drw 0 1 2) := by decide
theorem test_decode_skp : decodeTableWord 16 0b1110010010011110 = some (.skp 4) := by decide
theorem test_decode_sknp : decodeTableWord 16 0b1110010010100001 = some (.sknp 4) := by decide
theorem test_decode_ldVxDT : decodeTableWord 16 0b1111001000000111 = some (.ldVxDT 2) := by decide
theorem test_decode_ldVxK : decodeTableWord 16 0b1111000100001010 = some (.ldVxK 1) := by decide
theorem test_decode_ldDTVx : decodeTableWord 16 0b1111000000010101 = some (.ldDTVx 0) := by decide
theorem test_decode_ldSTVx : decodeTableWord 16 0b1111000100011000 = some (.ldSTVx 1) := by decide
theorem test_decode_addI : decodeTableWord 16 0b1111001000011110 = some (.addI 2) := by decide
theorem test_decode_ldF : decodeTableWord 16 0b1111000000101001 = some (.ldF 0) := by decide
theorem test_decode_ldB : decodeTableWord 16 0b1111000000110011 = some (.ldB 0) := by decide
theorem test_decode_storeRegs : decodeTableWord 16 0b1111001001010101 = some (.storeRegs 2) := by decide
theorem test_decode_loadRegs : decodeTableWord 16 0b1111001001100101 = some (.loadRegs 2) := by decide

/-- Words next to an instruction that select no row (30_encoding.md R80). -/
theorem test_decode_refuses :
    ([0x0000, 0x00E1, 0x0123, 0x5121, 0x8128, 0x812F, 0x912F, 0xE49F, 0xE000, 0xF1FF, 0xFF75].all
      fun w => (decodeTableWord 16 w).isNone) = true := by decide

/-! ### One step -/

/-- The reset state with the word under test where it is fetched, at 0x200. -/
def word (w : Nat) : State := State.reset.withFetchWord 16 w

/-- The state after one Step; a state from which there is none is returned as it is. -/
def after (s : State) : State :=
  match step s with
  | .next t => t
  | .fault _ => s
  | .refused _ => s

/-- Registers set by a list of numbers and values. -/
def putV (s : State) (rs : List (RegIdx × Byte)) : State := rs.foldl (fun s r => s.writeV r.1 r.2) s

/-- Bytes stored at an address. -/
def putBytes (s : State) (a : Nat) (bs : List Byte) : State := s.setMem (Memory.writeBytes s.mem a bs)

/-- The only lit cells. -/
def putCells (s : State) (ps : List Pixel) : State := { s with disp := { s.disp with lit := ps } }

/-- `sp` set to `d - 1`, with the same word in the `d` entries in use. -/
def putStack (s : State) (d : Fin 17) (a : Word) : State :=
  { s with depth := d, stack := Vector.ofFn fun k : RegIdx => if k.val < d.val then a else 0 }

/-- Keys pressed. -/
def putKeys (s : State) (ks : List RegIdx) : State := { s with keys := Vector.ofFn fun k : RegIdx => ks.contains k }

/-- The machine halted with this cause and word, pc still at 0x200. -/
def faulted (t : State) (c : FaultCause) (w : Word) : Bool :=
  t.mode == .halted && t.faultCause == c && t.faultWord == w && t.pc == 0x200

theorem test_placed_word : (word 0x6005).fetch = some (0x60, 0x05) := by decide

/-- DS1. -/
theorem test_cls_clears :
    let t := after (putCells (word 0x00E0) [(0, 0), (5, 5), (63, 31)])
    t.disp.lit = [] ∧ t.updateScreen = true := by decide
/-- CF1. -/
theorem test_ret_pops : let t := after (putStack (word 0x00EE) 1 0x202); t.pc = 0x204 ∧ t.sp = -1 := by decide
/-- CF2. -/
theorem test_ret_underflow : faulted (after (word 0x00EE)) .stackUnderflow 0 = true := by decide
/-- CF5. -/
theorem test_jp_far : (after (word 0x1FFF)).pc = 0xFFF ∧ (after (after (word 0x1FFF))).faultCause.code = 4 := by decide
/-- CF7. -/
theorem test_call_pushes :
    let t := after (putStack (word 0x2300) 15 0x222)
    t.sp = 15 ∧ t.stack[15] = 0x200 ∧ t.pc = 0x300 := by decide
/-- CF8. -/
theorem test_call_overflow : faulted (after (putStack (word 0x2300) 16 0x222)) .stackOverflow 0 = true := by decide
/-- CF9, CF10. -/
theorem test_seImm :
    (after (putV (word 0x332A) [(3, 0x2A)])).pc = 0x204 ∧ (after (putV (word 0x332A) [(3, 0x2B)])).pc = 0x202 := by
  decide
/-- CF11, CF12. -/
theorem test_sneImm : (after (putV (word 0x432A) [(3, 0x2A)])).pc = 0x202 ∧ (after (word 0x432A)).pc = 0x204 := by decide
/-- CF13, CF14. -/
theorem test_seReg :
    (after (putV (word 0x5120) [(1, 7), (2, 7)])).pc = 0x204 ∧
      (after (putV (word 0x5120) [(1, 7), (2, 8)])).pc = 0x202 := by decide
/-- CF16, CF17. -/
theorem test_sneReg :
    (after (putV (word 0x9120) [(1, 7), (2, 8)])).pc = 0x204 ∧
      (after (putV (word 0x9120) [(1, 7), (2, 7)])).pc = 0x202 := by decide
/-- CF20. -/
theorem test_jpV0_unmasked : (after (putV (word 0xBFFF) [(0, 0xFF)])).pc = 0x10FE := by decide
/-- AL2. -/
theorem test_ldImm : (after (word 0x6FAB)).readV 15 = 0xAB := by decide
/-- AL4. -/
theorem test_addImm_no_carry : let t := after (putV (word 0x7001) [(0, 0xFF)]); t.readV 0 = 0 ∧ t.readV 15 = 0 := by decide
/-- AL6. -/
theorem test_ldReg : (after (putV (word 0x8120) [(2, 0x33)])).readV 1 = 0x33 := by decide
/-- AL7. -/
theorem test_orReg_keeps_vf :
    let t := after (putV (word 0x8121) [(1, 0x0C), (2, 0x0A), (15, 0x77)])
    t.readV 1 = 0x0E ∧ t.readV 15 = 0x77 := by decide
/-- AL8. -/
theorem test_andReg : (after (putV (word 0x8122) [(1, 0x0C), (2, 0x0A)])).readV 1 = 0x08 := by decide
/-- AL9. -/
theorem test_xorReg : (after (putV (word 0x8123) [(1, 0x0C), (2, 0x0A)])).readV 1 = 0x06 := by decide
/-- AL12. -/
theorem test_addReg_carry :
    let t := after (putV (word 0x8014) [(0, 0xFF), (1, 1)])
    t.readV 0 = 0 ∧ t.readV 15 = 1 := by decide
/-- AL15, AL16: VF as source and as destination. -/
theorem test_addReg_vf :
    (after (putV (word 0x81F4) [(1, 0xF0), (15, 0x20)])).readV 1 = 0xF1 ∧
      (after (putV (word 0x8F14) [(15, 0xFF), (1, 1)])).readV 15 = 2 := by decide
/-- AL20, AL21. -/
theorem test_subReg_borrow :
    (after (putV (word 0x8015) [(0, 3), (1, 5)])).readV 0 = 0xFE ∧
      (after (putV (word 0x8015) [(0, 5), (1, 5)])).readV 15 = 1 := by decide
/-- AL24, AL25. -/
theorem test_subReg_vf :
    (after (putV (word 0x81F5) [(1, 5), (15, 3)])).readV 1 = 4 ∧
      (after (putV (word 0x8F15) [(15, 5), (1, 3)])).readV 15 = 0xFE := by decide
/-- AL28. -/
theorem test_shr_ignores_y :
    let t := after (putV (word 0x80A6) [(0, 5), (10, 0xEE)])
    t.readV 0 = 2 ∧ t.readV 15 = 1 := by decide
/-- AL32. -/
theorem test_shr_vf : (after (putV (word 0x8F06) [(15, 0xFF)])).readV 15 = 0 := by decide
/-- AL34, FD14. -/
theorem test_stub7_faults :
    let t := after ({ word 0x8127 with dt := 5 })
    faulted t .unimplementedOpcode 0x8127 = true ∧ t.dt = 5 := by decide
/-- AL35. -/
theorem test_stubE_faults : faulted (after (word 0x812E)) .unimplementedOpcode 0x812E = true := by decide
/-- AL38: the draw is taken; its value is free. -/
theorem test_rnd_takes_one : (after (word 0xC10F)).rndCount = 1 ∧ (after (word 0xC10F)).pc = 0x202 := by decide
/-- IM1. -/
theorem test_ldI : (after (word 0xA2EA)).i = 0x2EA := by decide
/-- IM4, IM5. -/
theorem test_addI_wraps :
    (after (putV ({ word 0xF01E with i := 0xFFF }) [(0, 1)])).i = 0x1000 ∧
      (after (putV ({ word 0xF01E with i := 0xFFFF }) [(0, 1)])).i = 0 := by decide
/-- IM8. -/
theorem test_ldF_unmasked : (after (putV (word 0xF029) [(0, 0xFF)])).i = 0x4FB := by decide
/-- IM15. -/
theorem test_ldB_last_address :
    Memory.readBytes (after (putV ({ word 0xF033 with i := 4093 }) [(0, 255)])).mem 4093 3 = [2, 5, 5] := by decide
/-- IM16. -/
theorem test_ldB_spills :
    faulted (after (putV ({ word 0xF033 with i := 4094 }) [(0, 255)])) .memoryOutOfBounds 0 = true := by decide
/-- IM18. -/
theorem test_storeRegs :
    Memory.readBytes (after (putV ({ word 0xF255 with i := 0x300 }) [(0, 1), (1, 2), (2, 3), (3, 4)])).mem 0x300 4 =
      [1, 2, 3, 0] := by decide
/-- IM20. -/
theorem test_storeRegs_spills :
    let t := after (putV ({ word 0xFF55 with i := 4081 }) [(0, 0x10)])
    faulted t .memoryOutOfBounds 0 = true ∧ Memory.read t.mem 4081 = 0 := by decide
/-- IM21. -/
theorem test_loadRegs :
    let t := after (putV (putBytes ({ word 0xF265 with i := 0x300 }) 0x300 [2, 5, 5, 9]) [(3, 0x77)])
    [0, 1, 2, 3].map t.readV = [2, 5, 5, 0x77] := by decide
/-- IM23. -/
theorem test_loadRegs_spills :
    let t := after (putV ({ word 0xF165 with i := 4095 }) [(0, 0xAA)])
    faulted t .memoryOutOfBounds 0 = true ∧ t.readV 0 = 0xAA := by decide
/-- DS5. -/
theorem test_drw_collision :
    let t := after (putCells (putBytes ({ word 0xD012 with i := 0x20A }) 0x20A [0xC0, 0x81]) [(1, 0), (5, 5)])
    t.disp.lit = [(0, 0), (0, 1), (7, 1), (5, 5)] ∧ t.readV 15 = 1 := by decide
/-- DS8. -/
theorem test_drw_clips :
    let t := after (putV (putBytes ({ word 0xD011 with i := 0x300 }) 0x300 [0xFF]) [(0, 60), (15, 7)])
    t.disp.lit = [(60, 0), (61, 0), (62, 0), (63, 0)] ∧ t.readV 15 = 0 := by decide
/-- TK10, TK11. -/
theorem test_skp :
    (after (putKeys (putV (word 0xE49E) [(4, 10)]) [10])).pc = 0x204 ∧
      (after (putV (word 0xE49E) [(4, 10)])).pc = 0x202 := by decide
/-- TK15. -/
theorem test_skp_no_key :
    faulted (after (putKeys (putV (word 0xE49E) [(4, 0xFF)]) [15])) .keyIndexOutOfRange 0 = true := by decide
/-- TK12, TK13. -/
theorem test_sknp :
    (after (putV (word 0xE4A1) [(4, 10)])).pc = 0x204 ∧
      (after (putKeys (putV (word 0xE4A1) [(4, 10)]) [10])).pc = 0x202 := by decide
/-- TK1. -/
theorem test_ldVxDT : let t := after ({ word 0xF207 with dt := 1 }); t.readV 2 = 1 ∧ t.dt = 0 := by decide
/-- TK17. -/
theorem test_ldVxK_arms :
    let t := after ({ word 0xF10A with dt := 5, st := 1 })
    t.mode = .waitingForKey ∧ t.keyReg = 1 ∧ t.pc = 0x202 ∧ t.dt = 4 ∧ t.st = 0 := by decide
/-- TK19. -/
theorem test_wait_smallest_key :
    let t := after (putKeys (after ({ word 0xF10A with dt := 5 })) [7, 9])
    t.readV 1 = 7 ∧ t.mode = .running ∧ t.dt = 4 := by decide
/-- TK7. -/
theorem test_ldDTVx : let t := after (putV ({ word 0xF015 with st := 5 }) [(0, 3)]); t.dt = 2 ∧ t.st = 4 := by decide
/-- TK8. -/
theorem test_ldSTVx : (after (putV (word 0xF118) [(1, 0x10)])).st = 0x0F := by decide
/-- R23, R40: a machine built with another FONT holds it at 0 to 79 and nowhere else. -/
theorem test_other_font :
    let m := (State.resetWith 8 2 (Vector.replicate 80 0xFF)).mem
    Memory.read m 0 = 0xFF ∧ Memory.read m 79 = 0xFF ∧ Memory.read m 80 = 0 := by decide
/-- P4: the first bytes of the program are where the first fetch reads. -/
theorem test_loadProgram :
    ((State.reset.loadProgram [0xA2, 0x0A]).toOption.map fun t => (t.fetch, t.romSize)) = some (some (0xA2, 0x0A), 2) := by
  decide

/-! ### For every obligation with hypotheses, inputs that meet them; where a statement has several clauses, inputs for each -/

/-- A machine about to execute `8014` at 0x200. -/
theorem test_instrAt : InstrAt (word 0x8014) (.addReg 0 1) := ⟨rfl, by decide, rfl⟩

/-- The last pc a fetch succeeds at. -/
def atEnd : State := ({ State.reset with pc := 4094 }).withFetchWord 16 0x6007

theorem test_instrAt_end : InstrAt atEnd (.ldImm 0 7) ∧ atEnd.pc.toNat = 4094 := ⟨⟨rfl, by decide, rfl⟩, by decide⟩

/-- A halted machine. -/
def stopped : State := after (word 0x8127)

/-- A machine that waits for a key into `V[1]`, with these keys down. -/
def waiting (ks : List RegIdx) : State := putKeys (after (word 0xF10A)) ks

theorem test_meets_DecodeOfEncodeIsInstruction : Instr.wellFormed (.drw 15 15 15) = true := by decide
theorem test_meets_EncodeOfDecodeIsWord : decode 0xDFFF = .ok (.drw 15 15 15) := rfl
theorem test_meets_DecodeFollowsOpcodeMap :
    (⟨0xF0FF, 0xE09E⟩ ∈ opcodeMap ∧ (0xE49E : Word) &&& 0xF0FF = 0xE09E) ∧
      ∀ r ∈ opcodeMap, (0xE49F : Word) &&& r.mask ≠ r.value := by decide

/-- The illegal set, one word of each of its lines at the edge of the line. -/
theorem test_meets_IllegalWordFaults_illegal :
    (word 0).mode = .running ∧ (word 0).pc.toNat ≤ 4094 ∧
      ∀ w ∈ [(0x0000 : Nat), 0x00E1, 0x00EF, 0x0FFF, 0x5121, 0x912F, 0x8007, 0x812F, 0xE49D, 0xEFFF, 0xF000, 0xFF66],
        Illegal (wordAtPc (word w)) := by
  unfold Illegal; decide
/-- Instructions next to the illegal set. -/
theorem test_meets_IllegalWordFaults_legal :
    ∀ w ∈ [(0x00E0 : Nat), 0x00EE, 0x1000, 0x5120, 0x9120, 0x8006, 0xE49E, 0xEFA1, 0xF007, 0xFF65],
      ¬ Illegal (wordAtPc (word w)) := by
  unfold Illegal; decide
theorem test_meets_StepRunsDecodedInstruction : InstrAt atEnd (.ldImm 0 7) := test_instrAt_end.1
theorem test_meets_FetchReadsTwoBytes :
    (({ State.reset with pc := 4095 }).mode = .running ∧ 4094 < ({ State.reset with pc := 4095 } : State).pc.toNat) ∧
      (atEnd.mode = .running ∧ atEnd.pc.toNat ≤ 4094 ∧
        decode (Memory.read atEnd.mem atEnd.pc.toNat ++ Memory.read atEnd.mem (atEnd.pc.toNat + 1)) = .ok (.ldImm 0 7)) ∧
      ((word 0xE49F).mode = .running ∧ (word 0xE49F).pc.toNat ≤ 4094 ∧
        decode (Memory.read (word 0xE49F).mem 0x200 ++ Memory.read (word 0xE49F).mem 0x201) = .error .groupE) :=
  ⟨⟨rfl, by decide⟩, ⟨rfl, by decide, rfl⟩, rfl, by decide, rfl⟩
theorem test_meets_HaltedStepIsIdentity : stopped.mode = .halted := by decide
theorem test_meets_WaitStoresSmallestKey :
    ((waiting []).mode = .waitingForKey ∧ ∀ k : RegIdx, (waiting []).keys[k] = false) ∧
      ((waiting [0, 15]).keys[(0 : RegIdx)] = true ∧ ∀ j < (0 : RegIdx), (waiting [0, 15]).keys[j] = false) ∧
      ((waiting [15]).keys[(15 : RegIdx)] = true ∧ ∀ j < (15 : RegIdx), (waiting [15]).keys[j] = false) := by decide
theorem test_meets_TimersDecrementPerInstruction :
    (InstrAt (word 0x8014) (.addReg 0 1) ∧ exec (.addReg 0 1) (word 0x8014) = .next (word 0x8014).advance ∧
      (word 0x8014).advance.mode ≠ .halted) ∧
      (step (waiting []) = .next (waiting []) ∧ (waiting []).mode ≠ .running) ∧
      (step (word 0x8127) = .next stopped ∧ stopped.mode = .halted) :=
  ⟨⟨test_instrAt, rfl, by decide⟩, ⟨rfl, by decide⟩, rfl, by decide⟩
theorem test_meets_PcFollowsNpcTable :
    (InstrAt (word 0x8014) (.addReg 0 1) ∧ step (word 0x8014) = .next (word 0x8014).advance ∧
      (word 0x8014).advance.mode ≠ .halted) ∧ (step (word 0x8127) = .next stopped ∧ stopped.mode = .halted) :=
  ⟨⟨test_instrAt, rfl, by decide⟩, rfl, by decide⟩
theorem test_meets_StepOutcomeReports :
    (step (word 0x00E0) = .next (after (word 0x00E0)) ∧ (after (word 0x00E0)).mode ≠ .halted ∧ InstrAt (word 0x00E0) .cls) ∧
      (step (word 0xF10A) = .next (after (word 0xF10A)) ∧ (after (word 0xF10A)).mode = .waitingForKey) :=
  ⟨⟨rfl, by decide, rfl, by decide, rfl⟩, rfl, by decide⟩
theorem test_meets_ModeTransitionTable :
    ((word 0x8014).mode = .running ∧ (word 0xF10A).mode = .running ∧ (word 0x8127).mode = .running) ∧
      ((waiting []).mode = .waitingForKey ∧ ∀ k : RegIdx, (waiting []).keys[k] = false) ∧
      ((waiting [15]).mode = .waitingForKey ∧ ∃ k : RegIdx, (waiting [15]).keys[k] = true) ∧ stopped.mode = .halted := by decide
theorem test_meets_FaultEntryWritesOnlyFaultRegisters :
    (word 0x8127).mode = .running ∧ step (word 0x8127) = .next stopped ∧ stopped.mode = .halted :=
  ⟨rfl, rfl, by decide⟩
theorem test_meets_FaultPriorityOrder :
    (({ State.reset with pc := 4095 } : State).mode = .running ∧ 4094 < ({ State.reset with pc := 4095 } : State).pc.toNat) ∧
      ((word 0x8007).mode = .running ∧ (word 0x8007).pc.toNat ≤ 4094 ∧ Illegal (wordAtPc (word 0x8007))) ∧
      (InstrAt (word 0x00EE) .ret ∧ (after (word 0x00EE)).mode = .halted) :=
  ⟨⟨rfl, by decide⟩, ⟨rfl, by decide, by unfold Illegal; decide⟩, ⟨rfl, by decide, rfl⟩, by decide⟩
theorem test_meets_HaltedIsTerminal : stopped.mode = .halted ∧ stopped.faultWord = 0x8127 := by decide
theorem test_meets_ResetMeetsInvariant : 1 ≤ 1 ∧ 1 ≤ 64 := by decide

/-- A machine with a display and a FONT of its own. -/
def other : State := State.resetWith 8 2 (Vector.replicate 80 0xFF)

theorem test_meets_ResetDecidedValues : other = State.resetWith 8 2 (Vector.replicate 80 0xFF) := rfl

/-- The invariant of a state with a word placed in it, here that of P1. -/
theorem test_meets_StepKeepsInvariant : Inv (word 0x6005) ∧ step (word 0x6005) = .next (after (word 0x6005)) :=
  ⟨⟨by decide, by decide, by decide, fun _ => rfl, by decide, by decide, by decide⟩, rfl⟩
theorem test_meets_ReachableStatesMeetInvariant : Reachable (State.reset.moves [.boot [0x60, 0x05], .step, .setKeyState 7 true]) :=
  ⟨64, 32, Config.font, _, by decide, by decide, by rw [State.reset_eq]; rfl⟩
theorem test_meets_LoadProgramCopiesOrRefuses :
    Memory.wf State.reset.mem = true ∧ 4096 < 0x200 + (List.replicate 3585 (0 : Byte)).length ∧
      0x200 + (List.replicate 3584 (0 : Byte)).length ≤ 4096 := by
  simp only [List.length_replicate]; decide
theorem test_meets_HostActionsBetweenSteps : 15 < 16 ∧ 15 < 16 ∧ 0 < 16 := by decide
theorem test_meets_PlacedWordIsExecuted :
    Memory.wf State.reset.mem = true ∧ decodeTableWord 16 (0xDFFF : Word).toNat = some (.drw 15 15 15) := by decide
theorem test_meets_ReturnPopsCallAddress :
    State.reset.sp = -1 ∧ (putStack State.reset 1 0x202).sp = ((0 : RegIdx).val : Int) ∧
      (putStack State.reset 16 0x202).sp = ((15 : RegIdx).val : Int) := by decide
theorem test_meets_CallPushesOwnAddress :
    (putStack State.reset 16 0x202).sp = 15 ∧ State.reset.sp + 1 = ((0 : RegIdx).val : Int) ∧
      (putStack State.reset 15 0x202).sp + 1 = ((15 : RegIdx).val : Int) := by decide
theorem test_meets_CallReturnSymmetry :
    let s := putStack (word 0x2300) 15 0x202
    s.sp < 15 ∧ exec (.call 0x300) s = .next (after s) ∧ (after s).stack = (after s).stack ∧ (after s).depth = 16 :=
  ⟨by decide, rfl, rfl, by decide⟩
/-- Each of the cases of `8xy4`, `8xy5` and `8xy6` by whether an operand is VF. -/
theorem test_meets_flag_cases :
    ((0 : RegIdx) ≠ 15 ∧ (14 : RegIdx) ≠ 15) ∧ ((0 : RegIdx) ≠ 15 ∧ (15 : RegIdx) = 15) ∧
      ((15 : RegIdx) = 15 ∧ (14 : RegIdx) ≠ 15) ∧ ((15 : RegIdx) = 15 ∧ (15 : RegIdx) = 15) := by decide
theorem test_meets_BcdStoresThreeDigits :
    Memory.wf (word 0xF033).mem = true ∧ 4095 < ({ word 0xF033 with i := 4094 } : State).i.toNat + 2 ∧
      ({ word 0xF033 with i := 4093 } : State).i.toNat + 2 ≤ 4095 := by decide
theorem test_meets_StoreBlockWritesRegisters :
    Memory.wf (word 0xFF55).mem = true ∧ 4095 < ({ word 0xFF55 with i := 4081 } : State).i.toNat + (15 : RegIdx).val ∧
      ({ word 0xFF55 with i := 4080 } : State).i.toNat + (15 : RegIdx).val ≤ 4095 := by decide
theorem test_meets_LoadBlockReadsRegisters :
    4095 < ({ word 0xF065 with i := 4096 } : State).i.toNat + (0 : RegIdx).val ∧
      ({ word 0xF065 with i := 4095 } : State).i.toNat + (0 : RegIdx).val ≤ 4095 := by decide

/-- A machine about to draw one row at (0, 0) from the last byte of Memory, cell (0, 0) lit. -/
def drawing : State := putCells (putBytes ({ word 0xD011 with i := 4095 }) 4095 [0x80]) [(0, 0)]

theorem test_meets_DrawXorsCoveredCells :
    drawing.disp.wf = true ∧ ¬ Fits drawing 2 ∧ Fits drawing 1 ∧ Fits ({ drawing with i := 0xFFFF }) 0 ∧
      (∃ p, covered drawing 0 1 1 p = true ∧ drawing.disp.pixel p = true) ∧
      (∀ p, covered drawing 0 1 0 p = true → drawing.disp.pixel p = false) := by
  refine ⟨by decide, by unfold Fits; decide, by unfold Fits; decide, by unfold Fits; decide, ⟨(0, 0), by decide⟩, ?_⟩
  intro p hp
  simp only [covered, Bool.and_eq_true, decide_eq_true_eq] at hp
  omega
theorem test_meets_DrawTwiceRestores :
    drawing.disp.wf = true ∧ Fits drawing 1 ∧ exec (.drw 0 1 1) drawing = .next (after drawing) ∧
      (after drawing).i = drawing.i ∧ (after drawing).readV 0 = drawing.readV 0 ∧ (after drawing).readV 1 = drawing.readV 1 ∧
      ∀ k < 1, Memory.read (after drawing).mem (drawing.i.toNat + k) = Memory.read drawing.mem (drawing.i.toNat + k) :=
  ⟨by decide, by unfold Fits; decide, rfl, rfl, rfl, rfl, fun _ _ => rfl⟩
theorem test_meets_TimerInstructions :
    InstrAt (word 0xF207) (.ldVxDT 2) ∧ InstrAt (word 0xF215) (.ldDTVx 2) ∧ InstrAt (word 0xF218) (.ldSTVx 2) :=
  ⟨⟨rfl, by decide, rfl⟩, ⟨rfl, by decide, rfl⟩, ⟨rfl, by decide, rfl⟩⟩
theorem test_meets_KeySkipsTestLevel :
    15 < ((putV State.reset [(4, 16)]).readV 4).toNat ∧ ((putV State.reset [(4, 15)]).readV 4).toNat = (15 : RegIdx).val ∧
      (State.reset.readV 4).toNat = (0 : RegIdx).val := by decide
theorem test_meets_KeyWaitIsArmed : InstrAt (word 0xF10A) (.ldVxK 1) := ⟨rfl, by decide, rfl⟩
theorem test_meets_TimersCountInstructions : TimedSteps 1 (word 0x1200) (after (word 0x1200)) :=
  .succ (.jp 0x200) ⟨rfl, by decide, rfl⟩ (fun _ h => nomatch h) (fun _ h => nomatch h) rfl (by decide) (.zero _)
theorem test_meets_NoUnlistedEffects : (word 0x8014).mode = .running := by decide
theorem test_meets_StepLeavesHostState :
    step ({ word 0x8014 with updateScreen := true }) = .next (after ({ word 0x8014 with updateScreen := true })) := rfl
theorem test_meets_MemoryWrittenOnlyByStores :
    let s := putV ({ word 0xF033 with i := 0x300 }) [(0, 255)]
    step s = .next (after s) ∧ Memory.read (after s).mem 0x302 ≠ Memory.read s.mem 0x302 := ⟨rfl, by decide⟩
theorem test_meets_WritersOfDisplayStackIndex :
    (step drawing = .next (after drawing) ∧ (after drawing).disp ≠ drawing.disp) ∧
      (step (word 0x2300) = .next (after (word 0x2300)) ∧ (after (word 0x2300)).stack ≠ (word 0x2300).stack) ∧
      (step (word 0xA2EA) = .next (after (word 0xA2EA)) ∧ (after (word 0xA2EA)).i ≠ (word 0xA2EA).i) :=
  ⟨⟨rfl, by decide⟩, ⟨rfl, by decide⟩, rfl, by decide⟩
theorem test_meets_NextFetchSeesStore :
    let s : State := { word 0xF155 with i := 0x202 }
    InstrAt s (.storeRegs 1) ∧ Memory.wf s.mem = true ∧ s.i.toNat + (1 : RegIdx).val ≤ 4095 ∧
      (0 : RegIdx).val + 1 ≤ (1 : RegIdx).val ∧ s.pc.toNat + 2 = s.i.toNat + (0 : RegIdx).val :=
  ⟨⟨rfl, by decide, rfl⟩, by decide, by decide, by decide, by decide⟩
theorem test_meets_RandomReadOnlyByRnd :
    (∀ x kk, ¬ InstrAt (word 0x8014) (.rnd x kk)) ∧ step (word 0x8014) = .next (after (word 0x8014)) :=
  ⟨fun _ _ h => (nomatch Except.ok.inj (test_instrAt.2.2.symm.trans h.2.2)), rfl⟩
theorem test_meets_RomSizeAndSoundTimerUnread : step (word 0x8014) = .next (after (word 0x8014)) := rfl

end Sys2Proof.Tests
end

