-- ==== Sys2Proof/Proofs/LoadProgram.lean ====
section
/-! PROOF. The loader (20_memory.md R62): its two outcomes, what the loaded Memory holds, and what a load leaves unchanged. -/

namespace Sys2Proof.Machine

/-- An address that no byte of a run of writes is stored at keeps its byte: `Memory.read_writeBytes_outside` in the
words of a frame. -/
theorem Memory.read_writeBytes_of_forall_ne (m : Memory) (a : Nat) (bs : List Byte) {a' : Nat}
    (h : ∀ k < bs.length, a' ≠ a + k) : Memory.read (Memory.writeBytes m a bs) a' = Memory.read m a' := by
  refine Memory.read_writeBytes_outside m a bs ?_
  by_contra hin
  exact h (a' - a) (by omega) (by omega)

/-- What an accepted load makes of the state (R62). -/
def State.loaded (s : State) (bytes : List Byte) : State :=
  { s with mem := Memory.writeBytes s.mem Config.progBase bytes, romSize := bytes.length }

@[simp] theorem State.loaded_romSize (s : State) (bytes : List Byte) : (s.loaded bytes).romSize = bytes.length := rfl

@[simp] theorem State.loaded_mem (s : State) (bytes : List Byte) :
    (s.loaded bytes).mem = Memory.writeBytes s.mem Config.progBase bytes := rfl

/-- A program that passes the end of Memory is refused. -/
theorem State.loadProgram_eq_error (s : State) {bytes : List Byte} (h : Config.memSize < Config.progBase + bytes.length) :
    s.loadProgram bytes = .error .romTooLarge :=
  if_pos h

/-- A program that fits is accepted. -/
theorem State.loadProgram_eq_ok (s : State) {bytes : List Byte} (h : Config.progBase + bytes.length ≤ Config.memSize) :
    s.loadProgram bytes = .ok (s.loaded bytes) :=
  if_neg (Nat.not_lt.2 h)

/-- A load stores each byte at its own address. -/
theorem State.read_loaded (s : State) {bytes : List Byte} (hwf : Memory.wf s.mem = true)
    (hfit : Config.progBase + bytes.length ≤ Config.memSize) (k : Nat) (hk : k < bytes.length) :
    Memory.read (s.loaded bytes).mem (Config.progBase + k) = bytes[k] := by
  rw [State.loaded_mem]
  exact Memory.read_writeBytes_inside hwf Config.progBase bytes hfit k hk

/-- The frame of a load: "The loader writes nothing outside [0x200, 0x200 + L)" and touches no register (R62). -/
theorem State.loaded_onlyChanges (s : State) (bytes : List Byte) :
    OnlyChanges s (s.loaded bytes)
      (fun p => p = .romSize ∨ ∃ k < bytes.length, p = .mem (Config.progBase + k)) := by
  intro p hp
  cases p with
  | mem a =>
    rw [Same, State.loaded_mem]
    refine Memory.read_writeBytes_of_forall_ne s.mem Config.progBase bytes fun k hk ha => ?_
    exact hp (.inr ⟨k, hk, congrArg Part.mem ha⟩)
  | romSize => exact absurd (.inl rfl) hp
  | dispSize => exact ⟨rfl, rfl⟩
  | v | i | pc | stack | sp | dt | st | pixel | key | mode | keyReg | updateScreen | faultCause | faultWord | font
  | rndCount => rfl

/-- Settles O23: the two outcomes of `loadProgram`, the accepted one with the bytes that read back and the frame. -/
theorem loadProgramCopiesOrRefuses : Obligations.LoadProgramCopiesOrRefuses := by
  intro s bytes hwf
  refine ⟨s.loadProgram_eq_error, fun hfit => ⟨s.loaded bytes, s.loadProgram_eq_ok hfit, s.loaded_romSize bytes, ?_, ?_⟩⟩
  · exact s.read_loaded hwf hfit
  · exact s.loaded_onlyChanges bytes

end Sys2Proof.Machine
end

