-- ==== Sys2Proof/Proofs/IllegalWords.lean ====
section
/-! PROOF. The illegal set (30_encoding.md R80): what the decoder answers on a word of it and on every
other word, what executing an instruction can end in, and from both what a Step does with the word at pc. -/

namespace Sys2Proof.Machine

open Sys2Proof.Claims

/-! ### The illegal set and the groups of the decoder -/

/-- What R80 asks of the decoder's answer on `w`: a refused word is in the set, a word read as a stub is in the set and
is that stub's encoding, and a word read as any other instruction is outside the set. -/
inductive AgreesWithIllegal (w : Word) : Except DecodeError Instr → Prop where
  | refused {e : DecodeError} (hw : Illegal w) : AgreesWithIllegal w (.error e)
  | stub {i : Instr} (hi : mayRaise i = some .unimplementedOpcode) (hw : Illegal w) (henc : encode i = w) :
      AgreesWithIllegal w (.ok i)
  | nonStub {i : Instr} (hi : mayRaise i ≠ some .unimplementedOpcode) (hw : ¬ Illegal w) : AgreesWithIllegal w (.ok i)

/-- Format XY: a word with these two nibbles is packed from its own registers. -/
theorem packXYN_eq_self {w : Word} {op n : BitVec 4} (hop : w.toNat / 4096 = op.toNat) (hn : w.toNat % 16 = n.toNat) :
    packXYN op (fieldX w) (fieldY w) n = w := by
  rw [← BitVec.eq_of_toNat_eq ((fieldOp_toNat w).trans hop), ← BitVec.eq_of_toNat_eq ((fieldN_toNat w).trans hn)]
  exact packXYN_fields w

section
variable {w : Word}

theorem decodeGroup0_agrees (hop : w.toNat / 4096 = 0) : AgreesWithIllegal w (decodeGroup0 w) := by
  have hill : Illegal w ↔ w ≠ 0x00E0 ∧ w ≠ 0x00EE := by simp [Illegal, hop]
  unfold decodeGroup0
  split
  · next hcls => exact .nonStub (by simp [mayRaise]) fun hw => (hill.1 hw).1 hcls
  · next hcls =>
    split
    · next hret => exact .nonStub (by simp [mayRaise]) fun hw => (hill.1 hw).2 hret
    · next hret => exact .refused (hill.2 ⟨hcls, hret⟩)

/-- `5xyN` and `9xyN`: one instruction, at `N = 0`. -/
theorem zeroNibble_agrees (hop : w.toNat / 4096 = 5 ∨ w.toNat / 4096 = 9) {i : Instr} {e : DecodeError}
    (hi : mayRaise i ≠ some .unimplementedOpcode) :
    AgreesWithIllegal w (if fieldN w = 0 then .ok i else .error e) := by
  have hill : Illegal w ↔ fieldN w ≠ 0 := by
    obtain h | h := hop <;> simp [Illegal, h, ← BitVec.toNat_inj]
  split
  · next h => exact .nonStub hi fun hw => hill.1 hw h
  · next h => exact .refused (hill.2 h)

theorem decodeGroup8_agrees (hop : w.toNat / 4096 = 8) :
    AgreesWithIllegal w (decodeGroup8 (fieldX w) (fieldY w) (w.toNat % 16)) := by
  have hill : Illegal w ↔ 7 ≤ w.toNat % 16 := by simp [Illegal, hop]
  unfold decodeGroup8
  split
  case h_8 hn => exact .stub rfl (hill.2 (by omega)) (packXYN_eq_self hop hn)
  case h_9 hn => exact .stub rfl (hill.2 (by omega)) (packXYN_eq_self hop hn)
  case h_10 => exact .refused (hill.2 (by simp only [imp_false] at *; omega))
  all_goals exact .nonStub (by simp [mayRaise]) fun hw => absurd (hill.1 hw) (by omega)

theorem decodeGroupE_agrees (hop : w.toNat / 4096 = 14) :
    AgreesWithIllegal w (decodeGroupE (fieldX w) (w.toNat % 256)) := by
  have hill : Illegal w ↔ w.toNat % 256 ∉ [0x9E, 0xA1] := by simp [Illegal, hop]
  unfold decodeGroupE
  split
  case h_3 => exact .refused (hill.2 (by simp_all))
  all_goals exact .nonStub (by simp [mayRaise]) fun hw => hill.1 hw (by simp [*])

theorem decodeGroupF_agrees (hop : w.toNat / 4096 = 15) :
    AgreesWithIllegal w (decodeGroupF (fieldX w) (w.toNat % 256)) := by
  have hill : Illegal w ↔ w.toNat % 256 ∉ [0x07, 0x0A, 0x15, 0x18, 0x1E, 0x29, 0x33, 0x55, 0x65] := by
    simp [Illegal, hop]
  unfold decodeGroupF
  split
  case h_10 => exact .refused (hill.2 (by simp_all))
  all_goals exact .nonStub (by simp [mayRaise]) fun hw => hill.1 hw (by simp [*])

/-- The decoder refuses, or reads as a stub, exactly the words of R80's list. -/
theorem decode_agrees (w : Word) : AgreesWithIllegal w (decode w) := by
  have hw := w.isLt
  unfold decode
  simp only [fieldOp_toNat, fieldN_toNat, fieldKK_toNat]
  split
  case h_1 hop => exact decodeGroup0_agrees hop
  case h_6 hop => exact zeroNibble_agrees (.inl hop) (by simp [mayRaise])
  case h_9 hop => exact decodeGroup8_agrees hop
  case h_10 hop => exact zeroNibble_agrees (.inr hop) (by simp [mayRaise])
  case h_15 hop => exact decodeGroupE_agrees hop
  case h_16 => exact decodeGroupF_agrees (by simp only [imp_false] at *; omega)
  all_goals exact .nonStub (by simp [mayRaise]) (by simp [Illegal, *])

end

/-! ### What executing an instruction can end in -/

/-- The two stubs fault unconditionally, with their own word (42_load_alu.md R139, R140). -/
theorem exec_stub {i : Instr} (h : mayRaise i = some .unimplementedOpcode) (s : State) :
    exec i s = .next (s.raise .unimplementedOpcode (encode i)) :=
  match i, h with
  | .stub7 _ _, _ => rfl
  | .stubE _ _, _ => rfl

/-- `exec` answers a state in which the machine is not halted, or the fault entry of the instruction's own cause. -/
def CompletesOrRaises (i : Instr) (s : State) (r : Result) : Prop :=
  ∃ u, r = .next u ∧
    (u.mode ≠ .halted ∨
      ∃ c, mayRaise i = some c ∧ u = s.raise c (if c = .unimplementedOpcode then encode i else 0))

section
variable {i : Instr} {s : State} (hs : s.mode = .running)
include hs

theorem completesOrRaises_of_mode {u : State} (hu : u.mode = s.mode) : CompletesOrRaises i s (.next u) :=
  ⟨u, rfl, .inl (by simp [hu, hs])⟩

theorem completesOrRaises_within {n : Nat} {t : State} (hi : mayRaise i = some .memoryOutOfBounds)
    (ht : t.mode = s.mode) : CompletesOrRaises i s (s.within n t) := by
  unfold State.within
  split
  · exact ⟨_, rfl, .inr ⟨_, hi, rfl⟩⟩
  · exact completesOrRaises_of_mode hs ht

theorem completesOrRaises_skipOnKey {x : RegIdx} {want : Bool} (hi : mayRaise i = some .keyIndexOutOfRange) :
    CompletesOrRaises i s (s.skipOnKey x want) := by
  unfold State.skipOnKey
  split
  · exact ⟨_, rfl, .inr ⟨_, hi, rfl⟩⟩
  · exact completesOrRaises_of_mode hs rfl

theorem completesOrRaises_ret : CompletesOrRaises .ret s (execRet s) := by
  unfold execRet
  split
  · exact ⟨_, rfl, .inr ⟨_, rfl, rfl⟩⟩
  · next a t h =>
    obtain ⟨-, -, rfl⟩ := State.pop_eq_some h
    exact completesOrRaises_of_mode hs rfl

theorem completesOrRaises_call (nnn : Addr12) : CompletesOrRaises (.call nnn) s (execCall nnn s) := by
  unfold execCall
  split
  · exact ⟨_, rfl, .inr ⟨_, rfl, rfl⟩⟩
  · next t h =>
    obtain ⟨-, rfl⟩ := State.push_eq_some h
    exact completesOrRaises_of_mode hs rfl

/-- Every instruction completes or raises the one fault `mayRaise` names (60_exceptions.md R208). -/
theorem exec_completesOrRaises (i : Instr) : CompletesOrRaises i s (exec i s) := by
  cases i with
  | ret => exact completesOrRaises_ret hs
  | call nnn => exact completesOrRaises_call hs nnn
  | drw | ldB | storeRegs | loadRegs => exact completesOrRaises_within hs rfl rfl
  | skp | sknp => exact completesOrRaises_skipOnKey hs rfl
  | stub7 | stubE => exact ⟨_, rfl, .inr ⟨_, rfl, rfl⟩⟩
  | ldVxK => exact ⟨_, rfl, .inl nofun⟩
  | cls | jp | seImm | sneImm | seReg | ldImm | addImm | ldReg | orReg | andReg | xorReg | addReg | subReg | shr
  | sneReg | ldI | jpV0 | rnd | ldVxDT | ldDTVx | ldSTVx | addI | ldF => exact completesOrRaises_of_mode hs rfl

end

/-! ### The Step on the word at pc -/

/-- Fault entry as the claims write it out (60_exceptions.md R206). -/
theorem raise_eq_halts (s : State) (c : FaultCause) (w : Word) : s.raise c w = halts s c w := rfl

/-- A word the decoder refuses (R80, R201). -/
theorem step_of_decode_error {s : State} {e : DecodeError} (hm : s.mode = .running) (hpc : s.pc.toNat ≤ 4094)
    (h : decode (wordAtPc s) = .error e) : step s = .next (s.raise .unimplementedOpcode (wordAtPc s)) := by
  have hd : decodeBytes (Memory.read s.mem s.pc.toNat) (Memory.read s.mem (s.pc.toNat + 1)) = .error e := h
  simp [step, hm, State.cycle, State.fetch_eq_some hpc, State.runBytes, hd, wordAtPc]

/-- A word that decodes (R95 to R97). -/
theorem step_of_instrAt {s : State} {i : Instr} (h : InstrAt s i) : step s = finish (exec i s) := by
  obtain ⟨hm, hpc, hi⟩ := h
  have hd : decodeBytes (Memory.read s.mem s.pc.toNat) (Memory.read s.mem (s.pc.toNat + 1)) = .ok i := hi
  simp [step, hm, State.cycle, State.fetch_eq_some hpc, State.runBytes, hd]

/-- A stub at pc: the fault entry ends the Step, and no timer moves. -/
theorem step_of_stubAt {s : State} {i : Instr} (h : InstrAt s i) (hi : mayRaise i = some .unimplementedOpcode) :
    step s = .next (s.raise .unimplementedOpcode (encode i)) := by
  rw [step_of_instrAt h, exec_stub hi, finish, State.retire_halted (State.raise_mode ..)]

/-- An instruction at pc that is no stub: whatever fault its Step enters is another one. -/
theorem step_of_nonStubAt {s : State} {i : Instr} (h : InstrAt s i) (hi : mayRaise i ≠ some .unimplementedOpcode) :
    ∃ t, step s = .next t ∧ (t.mode = .halted → t.faultCause ≠ .unimplementedOpcode) := by
  have hm : s.mode = .running := h.1
  obtain ⟨u, hu, hcase⟩ := exec_completesOrRaises hm i
  refine ⟨u.retire, by rw [step_of_instrAt h, hu, finish], fun ht => ?_⟩
  obtain hc | ⟨c, hc, rfl⟩ := hcase
  · rw [State.retire_completed hc, State.tick_mode] at ht
    exact absurd ht hc
  · rw [State.retire_halted (State.raise_mode ..), State.raise_faultCause]
    rintro rfl
    exact hi hc

/-- Settles O5: the decoder's answer on the word at pc is of one of three kinds, and the Step on each kind is known. -/
theorem illegalWordFaults : Obligations.IllegalWordFaults := by
  intro s hm hpc
  have hw := decode_agrees (wordAtPc s)
  generalize hd : decode (wordAtPc s) = r at hw
  cases hw with
  | refused hill => exact ⟨fun _ => step_of_decode_error hm hpc hd, absurd hill⟩
  | stub hi hill henc =>
    refine ⟨fun _ => ?_, absurd hill⟩
    rw [step_of_stubAt ⟨hm, hpc, hd⟩ hi, henc, raise_eq_halts]
  | nonStub hi hleg =>
    obtain ⟨t, ht, hcause⟩ := step_of_nonStubAt ⟨hm, hpc, hd⟩ hi
    exact ⟨fun hill => absurd hill hleg, fun _ => ⟨_, t, rfl, ht, hcause⟩⟩

end Sys2Proof.Machine
end

