-- ==== Sys2Proof/Proofs/StepCycle.lean ====
section
/-! PROOF. The Step in Running mode (40_step_cycle.md R94 to R101): what executing an instruction does to pc and to the
mode, what a Step ends in, and from both the fetch, the pc table and the mode table. -/

namespace Sys2Proof.Machine

open Sys2Proof.Claims

/-! ### What executing an instruction does to pc and to the mode -/

/-- How `exec i s` can end: in fault entry, in the wait that `Fx0A` arms, or in the mode of `s` with pc at `npc`. -/
inductive ExecOutcome (i : Instr) (s : State) : State → Prop where
  | raised (c : FaultCause) (w : Word) : ExecOutcome i s (s.raise c w)
  | waits (x : RegIdx) (hi : i = .ldVxK x) : ExecOutcome i s (s.armWait x).advance
  | completed {u : State} (hi : ∀ x, i ≠ .ldVxK x) (hmode : u.mode = s.mode) (hpc : u.pc = npc s i) : ExecOutcome i s u

/-- An instruction that answers one state `t`, whatever `s` holds. -/
theorem execOutcome_of_next {i : Instr} {s t u : State} (h : (.next t : Result) = .next u) (hi : ∀ x, i ≠ .ldVxK x)
    (hmode : t.mode = s.mode) (hpc : t.pc = npc s i) : ExecOutcome i s u := by
  cases h
  exact .completed hi hmode hpc

/-- The six skips, in the words of R118. -/
theorem State.skipIf_pc_eq_afterSkip (s : State) {c : Bool} {p : Prop} [Decidable p] (h : c = true ↔ p) :
    (s.skipIf c).pc = afterSkip s p := by
  simp only [State.skipIf_pc, afterSkip, h]

/-- The sum of `Bnnn` is the number's, taken modulo 65536. -/
theorem State.wideV_add_address (s : State) (x : RegIdx) (nnn : Addr12) :
    s.wideV x + address nnn = BitVec.ofNat 16 ((s.readV x).toNat + nnn.toNat) :=
  (BitVec.ofNat_add ..).symm

/-- A register that holds a key number, in the claims' words. -/
theorem keyOf_eq {s : State} {x : RegIdx} (hk : (s.readV x).toNat < 16) :
    keyOf s x = s.keys[(⟨(s.readV x).toNat, hk⟩ : RegIdx)] := by
  simp [keyOf, hk]

section
variable {i : Instr} {s u : State}

/-- A skip on a key, whose test is that the level of the key is `want`. -/
theorem execOutcome_skipOnKey {x : RegIdx} {want : Bool} (h : s.skipOnKey x want = .next u) (hi : ∀ x, i ≠ .ldVxK x)
    (hnpc : npc s i = afterSkip s (keyOf s x = want)) : ExecOutcome i s u := by
  obtain ⟨-, rfl⟩ | ⟨hk, rfl⟩ := State.skipOnKey_cases h
  · exact .raised ..
  · refine .completed hi rfl ?_
    rw [hnpc]
    exact s.skipIf_pc_eq_afterSkip (by rw [keyOf_eq hk, beq_iff_eq])

/-- A bounded access, which may stop at the fault of R51. -/
theorem execOutcome_within {n : Nat} {t : State} (h : s.within n t = .next u) (hi : ∀ x, i ≠ .ldVxK x)
    (hmode : t.mode = s.mode) (hpc : t.pc = npc s i) : ExecOutcome i s u := by
  obtain ⟨-, rfl⟩ | ⟨-, rfl⟩ := State.within_cases h
  · exact .raised ..
  · exact .completed hi hmode hpc

theorem execOutcome_ret (h : execRet s = .next u) : ExecOutcome .ret s u := by
  unfold execRet at h
  split at h
  · cases h
    exact .raised ..
  · next a t hpop =>
    obtain ⟨hd, rfl, rfl⟩ := State.pop_eq_some hpop
    have hlt : s.depth.val - 1 < 16 := by omega
    exact execOutcome_of_next h nofun rfl (by simp [npc, hlt])

theorem execOutcome_call {nnn : Addr12} (h : execCall nnn s = .next u) : ExecOutcome (.call nnn) s u := by
  unfold execCall at h
  split at h
  · cases h
    exact .raised ..
  · next t hpush =>
    obtain ⟨_, rfl⟩ := State.push_eq_some hpush
    exact execOutcome_of_next h nofun rfl rfl

/-- Every instruction faults, waits for a key, or keeps the mode and sets pc by the table of R98. -/
theorem exec_outcome (h : exec i s = .next u) : ExecOutcome i s u := by
  cases i with
  | ret => exact execOutcome_ret h
  | call => exact execOutcome_call h
  | jpV0 nnn => exact execOutcome_of_next h nofun rfl (s.wideV_add_address 0 nnn)
  | seImm | seReg => exact execOutcome_of_next h nofun rfl (s.skipIf_pc_eq_afterSkip beq_iff_eq)
  | sneImm | sneReg => exact execOutcome_of_next h nofun rfl (s.skipIf_pc_eq_afterSkip bne_iff_ne)
  | skp | sknp => exact execOutcome_skipOnKey h nofun rfl
  | drw | ldB | storeRegs | loadRegs => exact execOutcome_within h nofun rfl rfl
  | stub7 | stubE =>
    cases h
    exact .raised ..
  | ldVxK x =>
    cases h
    exact .waits x rfl
  | cls | jp | ldImm | addImm | ldReg | orReg | andReg | xorReg | addReg | subReg | shr | ldI | rnd | ldVxDT | ldDTVx
  | ldSTVx | addI | ldF => exact execOutcome_of_next h nofun rfl rfl

end

/-! ### What a Step ends in -/

section
variable {s : State}

/-- The fetch's fault (R94). -/
theorem step_of_pc_gt (hm : s.mode = .running) (hpc : 4094 < s.pc.toNat) :
    step s = .next (s.raise .memoryOutOfBounds 0) := by
  simp [step, hm, State.cycle, State.fetch_eq_none.2 hpc]

/-- An instruction at pc is executed, and the end of the Step follows (R96, R97). -/
theorem step_executes {i : Instr} (h : InstrAt s i) : ∃ u, exec i s = .next u ∧ step s = .next u.retire := by
  obtain ⟨u, hu, -⟩ := exec_completesOrRaises h.1 i
  exact ⟨u, hu, by rw [step_of_instrAt h, hu, finish]⟩

/-- How the Step of `i` can end (R96 to R98): as `ExecOutcome` says, the timers decremented unless it is a fault. -/
inductive InstrStepOutcome (i : Instr) (s : State) : State → Prop where
  | raised (c : FaultCause) (w : Word) : InstrStepOutcome i s (s.raise c w)
  | waits (x : RegIdx) (hi : i = .ldVxK x) : InstrStepOutcome i s (s.armWait x).advance.tick
  | completed {u : State} (hi : ∀ x, i ≠ .ldVxK x) (hu : exec i s = .next u) (hmode : u.mode = .running)
      (hpc : u.pc = npc s i) : InstrStepOutcome i s u.tick

/-- The Step of the instruction at pc. -/
theorem step_of_instrAt_outcome {i : Instr} (h : InstrAt s i) : ∃ t, step s = .next t ∧ InstrStepOutcome i s t := by
  obtain ⟨u, hu, hstep⟩ := step_executes h
  refine ⟨u.retire, hstep, ?_⟩
  cases exec_outcome hu with
  | raised c w =>
    rw [State.retire_halted (State.raise_mode ..)]
    exact .raised c w
  | waits x hi =>
    rw [State.retire_completed (by simp)]
    exact .waits x hi
  | completed hi hmode hpc =>
    have hrun : u.mode = .running := hmode.trans h.1
    rw [State.retire_completed (by simp [hrun])]
    exact .completed hi hu hrun hpc

/-- A Step in Running mode is fault entry, or the Step of the instruction at pc. -/
theorem step_of_running (hm : s.mode = .running) :
    ∃ t, step s = .next t ∧ ((∃ c w, t = s.raise c w) ∨ ∃ i, InstrAt s i ∧ InstrStepOutcome i s t) := by
  obtain hpc | hpc := Nat.lt_or_ge 4094 s.pc.toNat
  · exact ⟨_, step_of_pc_gt hm hpc, .inl ⟨_, _, rfl⟩⟩
  · cases hd : decode (wordAtPc s) with
    | error e => exact ⟨_, step_of_decode_error hm hpc hd, .inl ⟨_, _, rfl⟩⟩
    | ok i =>
      have hi : InstrAt s i := ⟨hm, hpc, hd⟩
      obtain ⟨t, ht, hout⟩ := step_of_instrAt_outcome hi
      exact ⟨t, ht, .inr ⟨i, hi, hout⟩⟩

/-- A Step in WaitingForKey is the key poll (R93). -/
theorem step_of_waiting (hm : s.mode = .waitingForKey) : step s = .next s.pollKeys := by simp [step, hm]

/-- A Step in Halted is the identity (R92). -/
theorem step_of_halted (hm : s.mode = .halted) : step s = .next s := by simp [step, hm]

/-- The key poll never halts a machine that waits. -/
theorem State.pollKeys_mode_ne_halted (hm : s.mode = .waitingForKey) : s.pollKeys.mode ≠ .halted := by
  obtain ⟨-, h⟩ | ⟨k, -, -, h⟩ := s.pollKeys_cases
  · simp [h, hm]
  · simp [h]

end

/-- Settles O7: the fetch's fault, and the word decoded from the two bytes at pc, refused or executed. -/
theorem fetchReadsTwoBytes : Obligations.FetchReadsTwoBytes := by
  intro s hm
  refine ⟨step_of_pc_gt hm, fun hpc => ⟨fun e hd => ?_, fun i hd => ?_⟩⟩
  · exact step_of_decode_error hm hpc hd
  · exact step_executes ⟨hm, hpc, hd⟩

/-! ### pc after a Step (R98) -/

/-- An instruction that completes leaves pc at the table's `npc`; the wait of `Fx0A` starts past the instruction. -/
theorem InstrStepOutcome.pc_eq_npc {i : Instr} {s t : State} (h : InstrStepOutcome i s t) (ht : t.mode ≠ .halted) :
    t.pc = npc s i := by
  cases h with
  | raised => exact absurd rfl ht
  | waits x hi =>
    subst hi
    rfl
  | completed _ _ _ hpc => exact hpc

/-- A Step of an instruction that ends halted leaves pc at the instruction. -/
theorem InstrStepOutcome.pc_of_halted {i : Instr} {s t : State} (h : InstrStepOutcome i s t) (ht : t.mode = .halted) :
    t.pc = s.pc := by
  cases h with
  | raised => rfl
  | waits => cases ht
  | completed _ _ hmode _ =>
    rw [State.tick_mode, hmode] at ht
    cases ht

/-- A Step that ends halted leaves pc where it was, in every mode it may start from. -/
theorem step_pc_of_halted {s t : State} (h : step s = .next t) (ht : t.mode = .halted) : t.pc = s.pc := by
  cases hm : s.mode with
  | halted =>
    cases (step_of_halted hm).symm.trans h
    rfl
  | waitingForKey =>
    cases (step_of_waiting hm).symm.trans h
    exact absurd ht (State.pollKeys_mode_ne_halted hm)
  | running =>
    obtain ⟨t', ht', hcase⟩ := step_of_running hm
    cases ht'.symm.trans h
    obtain ⟨c, w, rfl⟩ | ⟨i, -, hout⟩ := hcase
    · rfl
    · exact hout.pc_of_halted ht

/-- Settles O11: the Step of an instruction sets pc by the table, and a Step that ends halted keeps it. -/
theorem pcFollowsNpcTable : Obligations.PcFollowsNpcTable := by
  refine ⟨fun s i h => ?_, fun s t => step_pc_of_halted⟩
  obtain ⟨t, ht, hout⟩ := step_of_instrAt_outcome h
  exact ⟨t, ht, hout.pc_eq_npc⟩

/-! ### The rows of the mode table (R101) -/

section
variable (s : State)

/-- The frame of fault entry (R206). -/
theorem State.raise_onlyChanges (c : FaultCause) (w : Word) : OnlyChanges s (s.raise c w) faultParts := by
  intro p hp
  cases p with
  | mode | faultCause | faultWord => exact absurd (by simp [faultParts]) hp
  | dispSize => exact ⟨rfl, rfl⟩
  | v | i | pc | stack | sp | dt | st | mem | pixel | key | keyReg | updateScreen | romSize | font | rndCount => rfl

/-- The frame of the Step that arms a key wait (R185). -/
theorem State.armWait_advance_tick_onlyChanges (x : RegIdx) :
    OnlyChanges s (s.armWait x).advance.tick
      (fun p => p = .pc ∨ p = .keyReg ∨ p = .mode ∨ p = .dt ∨ p = .st) := by
  intro p hp
  cases p with
  | pc | keyReg | mode | dt | st => exact absurd (by simp) hp
  | dispSize => exact ⟨rfl, rfl⟩
  | v | i | stack | sp | mem | pixel | key | updateScreen | faultCause | faultWord | romSize | font | rndCount => rfl

/-- The frame of the Step that ends a key wait (R93). -/
theorem State.writeV_resume_onlyChanges (x : RegIdx) (b : Byte) :
    OnlyChanges s (s.writeV x b).resume (fun p => p = .v x ∨ p = .mode) := by
  intro p hp
  cases p with
  | mode => exact absurd (by simp) hp
  | v r =>
    have hr : r ≠ x := fun h => hp (.inl (congrArg Part.v h))
    rw [Same, State.resume_readV, State.writeV_readV, if_neg hr]
  | dispSize => exact ⟨rfl, rfl⟩
  | i | pc | stack | sp | dt | st | mem | pixel | key | keyReg | updateScreen | faultCause | faultWord | romSize | font
  | rndCount => rfl

end

/-- The row from Running to Halted. -/
def HaltRow (s t : State) : Prop := t.mode = .halted ∧ OnlyChanges s t faultParts

/-- The row from Running to WaitingForKey. -/
def ArmRow (s t : State) : Prop :=
  t.mode = .waitingForKey ∧ ∃ x, InstrAt s (.ldVxK x) ∧ t.keyReg = x ∧ t.pc = s.pc + 2 ∧
    t.dt.toNat = s.dt.toNat - 1 ∧ t.st.toNat = s.st.toNat - 1 ∧
    OnlyChanges s t (fun p => p = .pc ∨ p = .keyReg ∨ p = .mode ∨ p = .dt ∨ p = .st)

/-- The row from Running to Running. -/
def RunRow (s t : State) : Prop :=
  t.mode = .running ∧ ∃ i u, InstrAt s i ∧ (∀ x, i ≠ .ldVxK x) ∧ exec i s = .next u ∧ t = u.tick

section
variable {s t : State}

theorem haltRow_raise (s : State) (c : FaultCause) (w : Word) : HaltRow s (s.raise c w) :=
  ⟨rfl, s.raise_onlyChanges c w⟩

theorem armRow_armWait {x : RegIdx} (h : InstrAt s (.ldVxK x)) : ArmRow s (s.armWait x).advance.tick :=
  ⟨rfl, x, h, rfl, rfl, countDown_toNat s.dt, countDown_toNat s.st, s.armWait_advance_tick_onlyChanges x⟩

/-- The Step of an instruction is a row of the table that starts in Running. -/
theorem InstrStepOutcome.row {i : Instr} (hi : InstrAt s i) (h : InstrStepOutcome i s t) :
    RunRow s t ∨ ArmRow s t ∨ HaltRow s t := by
  cases h with
  | raised c w => exact .inr (.inr (haltRow_raise s c w))
  | waits x hx =>
    subst hx
    exact .inr (.inl (armRow_armWait hi))
  | completed hne hu hmode _ => exact .inl ⟨hmode, i, _, hi, hne, hu, rfl⟩

/-- The rows that start in WaitingForKey: the poll without a key, and with one. -/
theorem State.pollKeys_row (s : State) :
    ((∀ k : RegIdx, s.keys[k] = false) → s.pollKeys = s) ∧
      ((∃ k : RegIdx, s.keys[k] = true) →
        s.pollKeys.mode = .running ∧
          (∃ k : RegIdx, s.keys[k] = true ∧ s.pollKeys.readV s.keyReg = BitVec.ofNat 8 k.val) ∧
          OnlyChanges s s.pollKeys (fun p => p = .v s.keyReg ∨ p = .mode)) := by
  obtain ⟨hup, h⟩ | ⟨k, hk, -, h⟩ := s.pollKeys_cases
  · exact ⟨fun _ => h, fun ⟨k, hk⟩ => absurd hk (by simp [hup k])⟩
  · refine ⟨fun hup => absurd hk (by simp [hup k]), fun _ => ?_⟩
    rw [h]
    exact ⟨rfl, ⟨k, hk, by simp⟩, s.writeV_resume_onlyChanges _ _⟩

end

/-- Settles O13: the rows of each mode, one after the other. -/
theorem modeTransitionTable : Obligations.ModeTransitionTable := by
  intro s
  cases hm : s.mode with
  | running =>
    obtain ⟨t, ht, hcase⟩ := step_of_running hm
    refine ⟨t, ht, fun _ => ?_, nofun, nofun⟩
    obtain ⟨c, w, rfl⟩ | ⟨i, hi, hout⟩ := hcase
    · exact .inr (.inr (haltRow_raise s c w))
    · exact hout.row hi
  | waitingForKey => exact ⟨s.pollKeys, step_of_waiting hm, nofun, fun _ => s.pollKeys_row, nofun⟩
  | halted => exact ⟨s, step_of_halted hm, nofun, nofun, fun _ => rfl⟩

end Sys2Proof.Machine
end

