-- ==== Sys2Proof/Proofs/ControlFlow.lean ====
section
/-! PROOF. Control transfer (41_control_flow.md): the frames of a pc update and of a push, and from them the jumps, the
call and the register skips. -/

namespace Sys2Proof.Machine

open Sys2Proof.Claims

/-! ### The frame of a pc update -/

theorem Same.refl (s : State) (p : Part) : Same s s p := by
  cases p with
  | dispSize => exact ⟨rfl, rfl⟩
  | v | i | pc | stack | sp | dt | st | mem | pixel | key | mode | keyReg | updateScreen | faultCause | faultWord
  | romSize | font | rndCount => rfl

/-- A pc update after other writes keeps every part they kept, pc excepted. -/
theorem Same.setPc {s t : State} {p : Part} (h : Same s t p) (hp : p ≠ .pc) (a : Word) : Same s (t.setPc a) p := by
  cases p with
  | pc => exact absurd rfl hp
  | v | i | stack | sp | dt | st | mem | pixel | dispSize | key | mode | keyReg | updateScreen | faultCause | faultWord
  | romSize | font | rndCount => exact h

theorem State.setPc_onlyChanges (s : State) (a : Word) : OnlyChanges s (s.setPc a) (fun p => p = .pc) :=
  fun p hp => (Same.refl s p).setPc hp a

theorem State.skipIf_onlyChanges (s : State) (c : Bool) : OnlyChanges s (s.skipIf c) (fun p => p = .pc) :=
  s.setPc_onlyChanges _

/-! ### Calls -/

section
variable {s t : State} {a : Word} {k : RegIdx}

/-- `sp = 15` is the full stack. -/
theorem State.sp_eq_fifteen_iff : s.sp = 15 ↔ s.depth.val = 16 := by
  unfold State.sp
  omega

/-- The entry above the top has the number of the depth. -/
theorem State.sp_add_one_eq_iff : s.sp + 1 = (k.val : Int) ↔ s.depth.val = k.val := by
  unfold State.sp
  omega

/-- A push succeeds while an entry is free. -/
theorem State.exists_push_eq_some (hk : s.depth.val = k.val) (a : Word) : ∃ t, s.push a = some t := by
  refine Option.ne_none_iff_exists'.1 fun hnone => ?_
  have hfull := State.push_eq_none.1 hnone
  omega

theorem State.push_sp (h : s.push a = some t) : t.sp = s.sp + 1 := by
  obtain ⟨_, rfl⟩ := State.push_eq_some h
  simp only [State.sp]
  omega

/-- The new top entry. -/
theorem State.push_stack_top (hk : s.depth.val = k.val) (h : s.push a = some t) : t.stack[k] = a := by
  obtain ⟨_, rfl⟩ := State.push_eq_some h
  simp [hk]

/-- The entries below the new top, and those above it, stay. -/
theorem State.push_stack_of_ne (hk : s.depth.val = k.val) (h : s.push a = some t) {j : RegIdx} (hj : j ≠ k) :
    t.stack[j] = s.stack[j] := by
  obtain ⟨_, rfl⟩ := State.push_eq_some h
  have hne : s.depth.val ≠ j.val := fun e => hj (Fin.ext (e.symm.trans hk))
  simp [Vector.getElem_set_ne, hne]

/-- The frame of a push. -/
theorem State.push_onlyChanges (hk : s.depth.val = k.val) (h : s.push a = some t) :
    OnlyChanges s t (fun p => p = .sp ∨ p = .stack k) := by
  obtain ⟨_, rfl⟩ := State.push_eq_some h
  intro p hp
  cases p with
  | sp => exact absurd (.inl rfl) hp
  | stack j => exact State.push_stack_of_ne hk h fun e => hp (.inr (congrArg Part.stack e))
  | dispSize => exact ⟨rfl, rfl⟩
  | v | i | pc | dt | st | mem | pixel | key | mode | keyReg | updateScreen | faultCause | faultWord | romSize | font
  | rndCount => rfl

theorem exec_call_of_push_none (nnn : Addr12) (h : s.push s.pc = none) :
    exec (.call nnn) s = .next (s.raise .stackOverflow 0) := by
  simp [exec, execCall, h]

theorem exec_call_of_push_some (nnn : Addr12) (h : s.push s.pc = some t) :
    exec (.call nnn) s = .next (t.setPc (address nnn)) := by
  simp [exec, execCall, h]

end

@[simp] theorem address_toNat (nnn : Addr12) : (address nnn).toNat = nnn.toNat :=
  Nat.mod_eq_of_lt (nnn.isLt.trans (by decide))

/-- Settles O29: a push fails exactly at `sp = 15`, and a call is a push of its own pc followed by the jump. -/
theorem callPushesOwnAddress : Obligations.CallPushesOwnAddress := by
  intro s nnn
  constructor
  · intro hsp
    rw [← raise_eq_halts]
    exact exec_call_of_push_none nnn (State.push_eq_none.2 (State.sp_eq_fifteen_iff.1 hsp))
  · intro k hsp
    have hk : s.depth.val = k.val := State.sp_add_one_eq_iff.1 hsp
    obtain ⟨t, ht⟩ := State.exists_push_eq_some hk s.pc
    have hnewSp : t.sp = s.sp + 1 := State.push_sp ht
    have hentry : t.stack[k] = s.pc := State.push_stack_top hk ht
    refine ⟨t.setPc (address nnn), exec_call_of_push_some nnn ht, hnewSp, hentry, address_toNat nnn, fun p hp => ?_⟩
    obtain ⟨hpc, hrest⟩ := not_or.1 hp
    exact (State.push_onlyChanges hk ht p hrest).setPc hpc _

/-! ### Jumps -/

/-- The sum of `Bnnn` never wraps (R117). -/
theorem State.wideV_add_address_toNat (s : State) (x : RegIdx) (nnn : Addr12) :
    (s.wideV x + address nnn).toNat = (s.readV x).toNat + nnn.toNat := by
  have hx := (s.readV x).isLt
  have hn := nnn.isLt
  rw [State.wideV_add_address, BitVec.toNat_ofNat]
  omega

/-- Settles O28: both jumps are pc updates, by the zero-extended address and by its sum with `V[0]`. -/
theorem jumpsSetPc : Obligations.JumpsSetPc := by
  intro s nnn
  constructor
  · exact ⟨s.setPc (address nnn), rfl, address_toNat nnn, s.setPc_onlyChanges _⟩
  · exact ⟨s.setPc (s.wideV 0 + address nnn), rfl, s.wideV_add_address_toNat 0 nnn, s.setPc_onlyChanges _⟩

/-! ### Skips -/

/-- What an instruction that is a skip answers, its test `c` saying `p`. -/
theorem exec_skip {i : Instr} {s : State} {c : Bool} {p : Prop} [Decidable p] (hi : exec i s = .next (s.skipIf c))
    (hc : c = true ↔ p) :
    ∃ t, exec i s = .next t ∧ t.pc = afterSkip s p ∧ OnlyChanges s t (fun q => q = .pc) :=
  ⟨s.skipIf c, hi, s.skipIf_pc_eq_afterSkip hc, s.skipIf_onlyChanges c⟩

/-- Settles O30: each of the four is a skip whose test is the comparison its rule names. -/
theorem skipsTestRegisters : Obligations.SkipsTestRegisters := by
  intro s x y kk
  refine ⟨?seImm, ?sneImm, ?seReg, ?sneReg⟩
  case seImm => exact exec_skip rfl beq_iff_eq
  case sneImm => exact exec_skip rfl bne_iff_ne
  case seReg => exact exec_skip rfl beq_iff_eq
  case sneReg => exact exec_skip rfl bne_iff_ne

end Sys2Proof.Machine
end

