-- ==== Sys2Proof/Proofs/LoadAlu.lean ====
section
/-! PROOF. Register load and arithmetic (42_load_alu.md): what the one write of a register and the default advance do,
and from it the loads; the words of the two stubs, and from them their fault. -/

namespace Sys2Proof.Machine

open Sys2Proof.Claims

/-! ### The write of a register -/

/-- The frame of the write of a register. -/
theorem State.writeV_onlyChanges (s : State) (x : RegIdx) (b : Byte) :
    OnlyChanges s (s.writeV x b) (fun p => p = .v x) := by
  intro p hp
  cases p with
  | v r =>
    have hr : r ≠ x := fun h => hp (congrArg Part.v h)
    rw [Same, State.writeV_readV, if_neg hr]
  | dispSize => exact ⟨rfl, rfl⟩
  | i | pc | stack | sp | dt | st | mem | pixel | key | mode | keyReg | updateScreen | faultCause | faultWord | romSize
  | font | rndCount => rfl

/-- The frame of an operation that is followed by the default advance. -/
theorem OnlyChanges.advance {s t : State} {may : Part → Prop} (h : OnlyChanges s t may) :
    OnlyChanges s t.advance (fun p => p = .pc ∨ may p) := by
  intro p hp
  obtain ⟨hpc, hrest⟩ := not_or.1 hp
  exact (h p hrest).setPc hpc _

/-- What an instruction answers that writes `b` to `V[x]` and advances. -/
theorem exec_setAndAdvance {i : Instr} {s : State} {x : RegIdx} {b : Byte} (hi : exec i s = s.setAndAdvance x b) :
    ∃ t, exec i s = .next t ∧ t.readV x = b ∧ t.pc = s.pc + 2 ∧ OnlyChanges s t (fun p => p = .pc ∨ p = .v x) :=
  ⟨(s.writeV x b).advance, hi, by simp, rfl, (s.writeV_onlyChanges x b).advance⟩

/-- Settles O32: both loads are one write of `V[x]`, by the immediate and by the value of `V[y]`, and the advance. -/
theorem loadsSetRegister : Obligations.LoadsSetRegister := by
  intro s x y kk
  constructor
  · exact exec_setAndAdvance rfl
  · exact exec_setAndAdvance rfl

/-! ### The stubs -/

/-- The number a word of format XY stands for. -/
theorem packXYN_eq_ofNat (op : BitVec 4) (x y : RegIdx) (n : BitVec 4) :
    packXYN op x y n = BitVec.ofNat 16 (op.toNat * 4096 + n.toNat + 256 * x.val + 16 * y.val) := by
  have hlt := (packXYN op x y n).isLt
  apply BitVec.eq_of_toNat_eq
  rw [packXYN_toNat] at hlt ⊢
  rw [BitVec.toNat_ofNat]
  omega

/-- Settles O38: a stub raises with its own encoding, whose number is the opcode's with the two register nibbles. -/
theorem stubsRaiseUnimplemented : Obligations.StubsRaiseUnimplemented := by
  intro s x y
  constructor
  · have hword : encode (.stub7 x y) = BitVec.ofNat 16 (0x8007 + 256 * x.val + 16 * y.val) :=
      packXYN_eq_ofNat 0x8 x y 0x7
    rw [← hword, ← raise_eq_halts]
    exact exec_stub rfl s
  · have hword : encode (.stubE x y) = BitVec.ofNat 16 (0x800E + 256 * x.val + 16 * y.val) :=
      packXYN_eq_ofNat 0x8 x y 0xE
    rw [← hword, ← raise_eq_halts]
    exact exec_stub rfl s

end Sys2Proof.Machine
end

