-- ==== Sys2Proof/Proofs/IndexMemory.lean ====
section
/-! PROOF. Memory transfer (43_index_memory.md): the two outcomes of a data access, the frame of a run of stores at `I`
and the values of the decimal digits, and from them `Fx33`. -/

namespace Sys2Proof.Machine

open Sys2Proof.Claims

/-! ### The two outcomes of a data access (20_memory.md R55) -/

section
variable {s : State} {n : Nat}

theorem State.within_of_spills (h : s.spills n = true) (t : State) :
    s.within n t = .next (s.raise .memoryOutOfBounds 0) :=
  if_pos h

theorem State.within_of_not_spills (h : ¬ s.spills n = true) (t : State) : s.within n t = .next t :=
  if_neg h

end

/-! ### A run of stores -/

/-- The frame of a run of stores. -/
theorem State.setMem_writeBytes_onlyChanges (s : State) (a : Nat) (bs : List Byte) :
    OnlyChanges s (s.setMem (Memory.writeBytes s.mem a bs)) (fun p => ∃ k < bs.length, p = .mem (a + k)) := by
  intro p hp
  cases p with
  | mem a' =>
    rw [Same, State.setMem_mem]
    exact Memory.read_writeBytes_of_forall_ne s.mem a bs fun k hk ha => hp ⟨k, hk, congrArg Part.mem ha⟩
  | dispSize => exact ⟨rfl, rfl⟩
  | v | i | pc | stack | sp | dt | st | pixel | key | mode | keyReg | updateScreen | faultCause | faultWord | romSize
  | font | rndCount => rfl

/-! ### `Fx33` -/

section
variable (b : Byte)

theorem bcdDigits_hundreds_toNat : (bcdDigits b)[0].toNat = b.toNat / 100 :=
  Nat.mod_eq_of_lt ((Nat.div_le_self ..).trans_lt b.isLt)

theorem bcdDigits_tens_toNat : (bcdDigits b)[1].toNat = b.toNat / 10 % 10 :=
  Nat.mod_eq_of_lt ((Nat.mod_lt _ (by decide)).trans (by decide))

theorem bcdDigits_ones_toNat : (bcdDigits b)[2].toNat = b.toNat % 10 :=
  Nat.mod_eq_of_lt ((Nat.mod_lt _ (by decide)).trans (by decide))

end

/-- Settles O41: a spilling access faults before any store; otherwise the three digits read back from where the run of
stores put them, and its frame is that of the instruction. -/
theorem bcdStoresThreeDigits : Obligations.BcdStoresThreeDigits := by
  intro s x hwf
  constructor
  · intro hspill
    rw [← raise_eq_halts]
    exact State.within_of_spills (State.spills_iff.2 ⟨by decide, hspill⟩) _
  · intro hfit
    have hin : ¬ s.spills 3 = true := by
      rw [State.spills_iff]
      omega
    have hread := Memory.read_writeBytes_inside hwf s.i.toNat (bcdDigits (s.readV x)) (Nat.succ_le_succ hfit)
    refine ⟨_, State.within_of_not_spills hin _, ?hundreds, ?tens, ?ones, rfl,
      (s.setMem_writeBytes_onlyChanges _ _).advance⟩
    case hundreds => exact (congrArg BitVec.toNat (hread 0 (by simp))).trans (bcdDigits_hundreds_toNat _)
    case tens => exact (congrArg BitVec.toNat (hread 1 (by simp))).trans (bcdDigits_tens_toNat _)
    case ones => exact (congrArg BitVec.toNat (hread 2 (by simp))).trans (bcdDigits_ones_toNat _)

end Sys2Proof.Machine
end

