-- ==== Sys2Proof/Proofs/Exceptions.lean ====
section
/-! PROOF. Halted (60_exceptions.md R209): what each move of the host keeps of the mode and of the latched fault, and
what reset makes of them. -/

namespace Sys2Proof.Machine

/-! ### The moves of the host -/

/-- The move of a Step is the state the Step ends in. -/
theorem State.move_step_of_next {s t : State} (h : step s = .next t) : s.move .step = t := by
  simp [State.move, h]

/-- A machine in Halted stays as it is (R92). -/
theorem State.move_step_of_halted {s : State} (hm : s.mode = .halted) : s.move .step = s :=
  State.move_step_of_next (step_of_halted hm)

/-- Both outcomes of `setKeyState` (R102a, D29): the level of one key, or a refusal. -/
theorem State.move_setKeyState_cases (s : State) (k : Nat) (b : Bool) :
    (∃ h : k < 16, s.move (.setKeyState k b) = { s with keys := s.keys.set k b }) ∨
      (15 < k ∧ s.move (.setKeyState k b) = s) := by
  obtain hk | hk := Nat.lt_or_ge k 16
  · exact .inl ⟨hk, by simp [State.move, State.setKeyState, hk]⟩
  · exact .inr ⟨hk, by simp [State.move, State.setKeyState, Nat.not_lt.2 hk]⟩

/-! ### The latched fault -/

/-- `t` has the mode and the latched fault of `s`: the parts that fault entry writes (R206), `faultParts`. -/
def SameFault (s t : State) : Prop :=
  t.mode = s.mode ∧ t.faultCause = s.faultCause ∧ t.faultWord = s.faultWord

theorem State.move_setKeyState_sameFault (s : State) (k : Nat) (b : Bool) : SameFault s (s.move (.setKeyState k b)) := by
  obtain ⟨hk, h⟩ | ⟨-, h⟩ := s.move_setKeyState_cases k b
  · rw [h]
    exact ⟨rfl, rfl, rfl⟩
  · rw [h]
    exact ⟨rfl, rfl, rfl⟩

theorem State.move_clearUpdateScreen_sameFault (s : State) : SameFault s (s.move .clearUpdateScreen) :=
  ⟨rfl, rfl, rfl⟩

theorem State.move_step_sameFault {s : State} (hm : s.mode = .halted) : SameFault s (s.move .step) := by
  rw [State.move_step_of_halted hm]
  exact ⟨rfl, rfl, rfl⟩

/-- Reset runs the machine again with no fault latched (R40, R230). -/
theorem State.move_reset_clears_fault (s : State) :
    (s.move .reset).mode = .running ∧ (s.move .reset).faultCause = .none ∧ (s.move .reset).faultWord = 0 :=
  ⟨rfl, rfl, rfl⟩

/-- Settles O16: the two actions of the host keep the mode and the latched fault in every state and the Step keeps all of
a halted state, so what the three leave is halted with the same fault; reset clears it. -/
theorem haltedIsTerminal : Obligations.HaltedIsTerminal := by
  intro s hm
  refine ⟨fun m hmove => ?_, State.move_step_of_halted hm, s.move_reset_clears_fault⟩
  have hsame : SameFault s (s.move m) := by
    obtain rfl | ⟨k, b, rfl⟩ | rfl := hmove
    · exact State.move_step_sameFault hm
    · exact s.move_setKeyState_sameFault k b
    · exact s.move_clearUpdateScreen_sameFault
  obtain ⟨hmode, hcause, hword⟩ := hsame
  exact ⟨hmode.trans hm, hcause, hword⟩

end Sys2Proof.Machine
end

