-- ==== Sys2Proof/Proofs/Encoding.lean ====
section
/-! PROOF. The encoding (30_encoding.md): the decoder on packed words, the words the decoder accepts, and the rows of the
opcode map. -/

namespace Sys2Proof

open Sys2Proof.Machine

/-! ### The decoder on the word of an instruction -/

theorem decode_packXYN_group8 (x y : RegIdx) (n : BitVec 4) :
    decode (packXYN 0x8 x y n) = decodeGroup8 x y n.toNat := by
  simp [decode]

theorem decode_packXKK_groupE (x : RegIdx) (kk : Byte) : decode (packXKK 0xE x kk) = decodeGroupE x kk.toNat := by
  simp [decode]

theorem decode_packXKK_groupF (x : RegIdx) (kk : Byte) : decode (packXKK 0xF x kk) = decodeGroupF x kk.toNat := by
  simp [decode]

/-- Settles O1: the decoder reads the group from the top nibble of the packed word, and in the group either the operands
or the sub-opcode that the encoder packed. -/
theorem decodeOfEncodeIsInstruction : Obligations.DecodeOfEncodeIsInstruction := by
  intro i hwf
  cases i with
  | cls | ret => rfl
  | jp | call | ldI | jpV0 => simp [encode, decode]
  | seImm | sneImm | ldImm | addImm | rnd => simp [encode, decode]
  | seReg | sneReg => simp [encode, decode]
  | drw x y n =>
    have hn : n < 16 := Nat.lt_succ_of_le (of_decide_eq_true hwf)
    simp [encode, decode, Nat.mod_eq_of_lt hn]
  | ldReg x y | orReg x y | andReg x y | xorReg x y | addReg x y | subReg x y | shr x y | stub7 x y | stubE x y =>
    exact decode_packXYN_group8 x y _
  | skp x | sknp x => exact decode_packXKK_groupE x _
  | ldVxDT x | ldVxK x | ldDTVx x | ldSTVx x | addI x | ldF x | ldB x | storeRegs x | loadRegs x =>
    exact decode_packXKK_groupF x _

/-! ### A word is packed from its own fields -/

section
variable {w : Word}

/-- Format NNN. -/
theorem packNNN_eq_self {op : BitVec 4} (hop : w.toNat / 4096 = op.toNat) : packNNN op (fieldNNN w) = w := by
  rw [← BitVec.eq_of_toNat_eq ((fieldOp_toNat w).trans hop)]
  exact packNNN_fields w

/-- Format XKK. -/
theorem packXKK_eq_self {op : BitVec 4} (hop : w.toNat / 4096 = op.toNat) :
    packXKK op (fieldX w) (fieldKK w) = w := by
  rw [← BitVec.eq_of_toNat_eq ((fieldOp_toNat w).trans hop)]
  exact packXKK_fields w

/-- Format X: the low byte is the sub-opcode. -/
theorem packX_eq_self {op : BitVec 4} {kk : Byte} (hop : w.toNat / 4096 = op.toNat) (hkk : w.toNat % 256 = kk.toNat) :
    packXKK op (fieldX w) kk = w := by
  rw [← BitVec.eq_of_toNat_eq ((fieldKK_toNat w).trans hkk)]
  exact packXKK_eq_self hop

/-- Format XYN, its row count read as a number. -/
theorem packXYN_rows_eq_self {op : BitVec 4} (hop : w.toNat / 4096 = op.toNat) :
    packXYN op (fieldX w) (fieldY w) (BitVec.ofNat 4 (fieldN w).toNat) = w := by
  rw [BitVec.ofNat_toNat, BitVec.setWidth_eq]
  exact packXYN_eq_self hop (fieldN_toNat w).symm

end

/-! ### The words the decoder accepts -/

/-- An answer of the decoder on `w` that, if it is an instruction, is a well-formed one whose word is `w`. -/
def ReadsBack (w : Word) (r : Except DecodeError Instr) : Prop :=
  ∀ i, r = .ok i → i.wellFormed = true ∧ encode i = w

section
variable {w : Word}

theorem readsBack_error (e : DecodeError) : ReadsBack w (.error e) := nofun

theorem readsBack_ok {i : Instr} (hwf : i.wellFormed = true) (h : encode i = w) : ReadsBack w (.ok i) := by
  rintro _ ⟨⟩
  exact ⟨hwf, h⟩

theorem decodeGroup0_readsBack : ReadsBack w (decodeGroup0 w) := by
  unfold decodeGroup0
  split
  · next h => exact readsBack_ok rfl h.symm
  · split
    · next h => exact readsBack_ok rfl h.symm
    · exact readsBack_error _

/-- `5xyN` and `9xyN`. -/
theorem zeroNibble_readsBack {i : Instr} (e : DecodeError) (hwf : i.wellFormed = true)
    (h : w.toNat % 16 = 0 → encode i = w) : ReadsBack w (if fieldN w = 0 then .ok i else .error e) := by
  split
  · next hn => exact readsBack_ok hwf (h (by rw [← fieldN_toNat, hn]; rfl))
  · exact readsBack_error e

theorem decodeGroup8_readsBack (hop : w.toNat / 4096 = 8) :
    ReadsBack w (decodeGroup8 (fieldX w) (fieldY w) (w.toNat % 16)) := by
  unfold decodeGroup8
  split
  case h_10 => exact readsBack_error _
  all_goals next hn => exact readsBack_ok rfl (packXYN_eq_self hop hn)

theorem decodeGroupE_readsBack (hop : w.toNat / 4096 = 14) :
    ReadsBack w (decodeGroupE (fieldX w) (w.toNat % 256)) := by
  unfold decodeGroupE
  split
  case h_3 => exact readsBack_error _
  all_goals next hkk => exact readsBack_ok rfl (packX_eq_self hop hkk)

theorem decodeGroupF_readsBack (hop : w.toNat / 4096 = 15) :
    ReadsBack w (decodeGroupF (fieldX w) (w.toNat % 256)) := by
  unfold decodeGroupF
  split
  case h_10 => exact readsBack_error _
  all_goals next hkk => exact readsBack_ok rfl (packX_eq_self hop hkk)

/-- The decoder loses no bit of a word it accepts. -/
theorem decode_readsBack (w : Word) : ReadsBack w (decode w) := by
  have hw := w.isLt
  unfold decode
  simp only [fieldOp_toNat, fieldKK_toNat]
  split
  case h_1 => exact decodeGroup0_readsBack
  case h_6 hop => exact zeroNibble_readsBack _ rfl (packXYN_eq_self (n := 0) hop)
  case h_9 hop => rw [fieldN_toNat]; exact decodeGroup8_readsBack hop
  case h_10 hop => exact zeroNibble_readsBack _ rfl (packXYN_eq_self (n := 0) hop)
  case h_14 hop => exact readsBack_ok (decide_eq_true (Nat.le_of_lt_succ (fieldN w).isLt)) (packXYN_rows_eq_self hop)
  case h_15 hop => exact decodeGroupE_readsBack hop
  case h_16 => exact decodeGroupF_readsBack (by simp only [imp_false] at *; omega)
  case h_2 hop | h_3 hop | h_11 hop | h_12 hop => exact readsBack_ok rfl (packNNN_eq_self hop)
  all_goals next hop => exact readsBack_ok rfl (packXKK_eq_self hop)

end

/-- Settles O2: each group packs the fields it read back into the word. -/
theorem encodeOfDecodeIsWord : Obligations.EncodeOfDecodeIsWord := decode_readsBack

/-- Settles O4: the decoder evaluates on each of the six words. -/
theorem sampleWordsDecode : Obligations.SampleWordsDecode := ⟨rfl, rfl, rfl, rfl, rfl, rfl⟩

/-! ### The rows of the opcode map -/

/-- The instruction of the same row as `i` whose operands are the fields of `w`. -/
def Instr.withFieldsOf (w : Word) : Instr → Instr
  | .cls => .cls
  | .ret => .ret
  | .jp _ => .jp (fieldNNN w)
  | .call _ => .call (fieldNNN w)
  | .seImm _ _ => .seImm (fieldX w) (fieldKK w)
  | .sneImm _ _ => .sneImm (fieldX w) (fieldKK w)
  | .seReg _ _ => .seReg (fieldX w) (fieldY w)
  | .ldImm _ _ => .ldImm (fieldX w) (fieldKK w)
  | .addImm _ _ => .addImm (fieldX w) (fieldKK w)
  | .ldReg _ _ => .ldReg (fieldX w) (fieldY w)
  | .orReg _ _ => .orReg (fieldX w) (fieldY w)
  | .andReg _ _ => .andReg (fieldX w) (fieldY w)
  | .xorReg _ _ => .xorReg (fieldX w) (fieldY w)
  | .addReg _ _ => .addReg (fieldX w) (fieldY w)
  | .subReg _ _ => .subReg (fieldX w) (fieldY w)
  | .shr _ _ => .shr (fieldX w) (fieldY w)
  | .stub7 _ _ => .stub7 (fieldX w) (fieldY w)
  | .stubE _ _ => .stubE (fieldX w) (fieldY w)
  | .sneReg _ _ => .sneReg (fieldX w) (fieldY w)
  | .ldI _ => .ldI (fieldNNN w)
  | .jpV0 _ => .jpV0 (fieldNNN w)
  | .rnd _ _ => .rnd (fieldX w) (fieldKK w)
  | .drw _ _ _ => .drw (fieldX w) (fieldY w) (fieldN w).toNat
  | .skp _ => .skp (fieldX w)
  | .sknp _ => .sknp (fieldX w)
  | .ldVxDT _ => .ldVxDT (fieldX w)
  | .ldVxK _ => .ldVxK (fieldX w)
  | .ldDTVx _ => .ldDTVx (fieldX w)
  | .ldSTVx _ => .ldSTVx (fieldX w)
  | .addI _ => .addI (fieldX w)
  | .ldF _ => .ldF (fieldX w)
  | .ldB _ => .ldB (fieldX w)
  | .storeRegs _ => .storeRegs (fieldX w)
  | .loadRegs _ => .loadRegs (fieldX w)

theorem Instr.withFieldsOf_row (w : Word) (i : Instr) : (i.withFieldsOf w).row = i.row := by
  cases i <;> rfl

theorem Instr.withFieldsOf_wellFormed (w : Word) (i : Instr) : (i.withFieldsOf w).wellFormed = true := by
  cases i with
  | drw => exact decide_eq_true (Nat.le_of_lt_succ (fieldN w).isLt)
  | _ => rfl

section
variable {w : Word} {op : BitVec 4}

theorem op_of_and_F000 (h : w &&& 0xF000 = packNNN op 0) : w.toNat / 4096 = op.toNat := by
  rw [and_F000] at h
  have hop := congrArg fieldOp h
  rw [fieldOp_packNNN, fieldOp_packNNN] at hop
  rw [← fieldOp_toNat, hop]

theorem packXYN_of_and_F00F {n : BitVec 4} (h : w &&& 0xF00F = packXYN op 0 0 n) :
    packXYN op (fieldX w) (fieldY w) n = w := by
  rw [and_F00F] at h
  have hop := congrArg fieldOp h
  have hn := congrArg fieldN h
  rw [fieldOp_packXYN, fieldOp_packXYN] at hop
  rw [fieldN_packXYN, fieldN_packXYN] at hn
  rw [← hop, ← hn]
  exact packXYN_fields w

theorem packXKK_of_and_F0FF {kk : Byte} (h : w &&& 0xF0FF = packXKK op 0 kk) : packXKK op (fieldX w) kk = w := by
  rw [and_F0FF] at h
  have hop := congrArg fieldOp h
  have hkk := congrArg fieldKK h
  rw [fieldOp_packXKK, fieldOp_packXKK] at hop
  rw [fieldKK_packXKK, fieldKK_packXKK] at hkk
  rw [← hop, ← hkk]
  exact packXKK_fields w

end

/-- A word that matches a row is the word of an instruction of that row, by the row's mask. -/
theorem encode_withFieldsOf {w : Word} {i : Instr} (h : w &&& i.row.mask = i.row.value) :
    encode (i.withFieldsOf w) = w := by
  cases i with
  | cls | ret => exact h.symm.trans (and_FFFF w)
  | jp | call | ldI | jpV0 => exact packNNN_eq_self (op_of_and_F000 h)
  | seImm | sneImm | ldImm | addImm | rnd => exact packXKK_eq_self (op_of_and_F000 h)
  | drw => exact packXYN_rows_eq_self (op_of_and_F000 h)
  | seReg | ldReg | orReg | andReg | xorReg | addReg | subReg | shr | stub7 | stubE | sneReg =>
    exact packXYN_of_and_F00F h
  | skp | sknp | ldVxDT | ldVxK | ldDTVx | ldSTVx | addI | ldF | ldB | storeRegs | loadRegs =>
    exact packXKK_of_and_F0FF h

/-- A word that matches the row of `i` decodes to an instruction of that row. -/
theorem exists_decode_of_matches_row {w : Word} {i : Instr} (h : w &&& i.row.mask = i.row.value) :
    ∃ j, decode w = .ok j ∧ j.row = i.row := by
  refine ⟨i.withFieldsOf w, ?_, i.withFieldsOf_row w⟩
  have hdec := decodeOfEncodeIsInstruction _ (i.withFieldsOf_wellFormed w)
  rwa [encode_withFieldsOf h] at hdec

/-- The word of an instruction matches its row, by the row's mask. -/
theorem encode_matches_row (i : Instr) : encode i &&& i.row.mask = i.row.value := by
  cases i with
  | cls | ret => exact and_FFFF _
  | jp | call | ldI | jpV0 => exact Laws.OpcodeRow.of_NNN ..
  | seImm | sneImm | ldImm | addImm | rnd => exact Laws.OpcodeRow.of_XKK ..
  | drw => exact Laws.OpcodeRow.of_XYN ..
  | seReg | ldReg | orReg | andReg | xorReg | addReg | subReg | shr | stub7 | stubE | sneReg =>
    exact Laws.OpcodeRow.of_XY ..
  | skp | sknp | ldVxDT | ldVxK | ldDTVx | ldSTVx | addI | ldF | ldB | storeRegs | loadRegs =>
    exact Laws.OpcodeRow.of_X ..

/-- A word that decodes matches the row of its instruction. -/
theorem decode_matches_row {w : Word} {i : Instr} (h : decode w = .ok i) : w &&& i.row.mask = i.row.value := by
  obtain ⟨-, rfl⟩ := decode_readsBack w i h
  exact encode_matches_row i

/-- One instruction of each row, in the order of the map. -/
def rowInstrs : List Instr :=
  [.cls, .ret, .jp 0, .call 0, .seImm 0 0, .sneImm 0 0, .seReg 0 0, .ldImm 0 0, .addImm 0 0, .ldReg 0 0, .orReg 0 0,
    .andReg 0 0, .xorReg 0 0, .addReg 0 0, .subReg 0 0, .shr 0 0, .stub7 0 0, .stubE 0 0, .sneReg 0 0, .ldI 0, .jpV0 0,
    .rnd 0 0, .drw 0 0 0, .skp 0, .sknp 0, .ldVxDT 0, .ldVxK 0, .ldDTVx 0, .ldSTVx 0, .addI 0, .ldF 0, .ldB 0,
    .storeRegs 0, .loadRegs 0]

theorem opcodeMap_eq_rows : opcodeMap = rowInstrs.map Instr.row := rfl

/-- The map holds the rows of the instructions and no other. -/
theorem mem_opcodeMap_iff {r : OpRow} : r ∈ opcodeMap ↔ ∃ i : Instr, i.row = r := by
  constructor
  · intro h
    rw [opcodeMap_eq_rows, List.mem_map] at h
    obtain ⟨i, -, hi⟩ := h
    exact ⟨i, hi⟩
  · rintro ⟨i, rfl⟩
    cases i <;> simp [opcodeMap, Instr.row]

/-- Settles O3: a word that matches a row is the word of an instruction of that row, which decodes to it, and a word that
decodes is the word of its instruction; a word that matches no row therefore has no instruction, and conversely. -/
theorem decodeFollowsOpcodeMap : Obligations.DecodeFollowsOpcodeMap := by
  intro w
  have hrow : ∀ r ∈ opcodeMap, w &&& r.mask = r.value ↔ ∃ i, decode w = .ok i ∧ i.row = r := by
    intro r hr
    constructor
    · obtain ⟨i, rfl⟩ := mem_opcodeMap_iff.1 hr
      exact exists_decode_of_matches_row
    · rintro ⟨i, hi, rfl⟩
      exact decode_matches_row hi
  refine ⟨hrow, fun hnone => ?_, fun ⟨e, he⟩ r hr hmatch => ?_⟩
  · cases hd : decode w with
    | error e => exact ⟨e, rfl⟩
    | ok i => exact absurd (decode_matches_row hd) (hnone i.row (mem_opcodeMap_iff.2 ⟨i, rfl⟩))
  · obtain ⟨i, hi, -⟩ := (hrow r hr).1 hmatch
    cases he.symm.trans hi

end Sys2Proof
end

