-- ==== Sys2Proof/Proofs/Effects.lean ====
section
/-! PROOF. What executing an instruction and what a Step can write (00_scope.md R11): the frames of the named updates, one
inversion lemma for `exec` and one for `step`, and from them who writes which part of the state. -/

namespace Sys2Proof.Machine

open Sys2Proof.Claims

/-! ### Frames -/

theorem Same.trans {s t u : State} {p : Part} (h : Same s t p) (h' : Same t u p) : Same s u p := by
  cases p with
  | dispSize => exact ⟨h'.1.trans h.1, h'.2.trans h.2⟩
  | _ => exact Eq.trans h' h

section
variable {s t u : State} {may may' : Part → Prop}

theorem OnlyChanges.mono (h : OnlyChanges s t may) (hle : ∀ p, may p → may' p) : OnlyChanges s t may' :=
  fun p hp => h p (mt (hle p) hp)

theorem OnlyChanges.trans (h : OnlyChanges s t may) (h' : OnlyChanges t u may') :
    OnlyChanges s u (fun p => may p ∨ may' p) := by
  intro p hp
  obtain ⟨hmay, hmay'⟩ := not_or.1 hp
  exact (h p hmay).trans (h' p hmay')

theorem OnlyChanges.setPc (h : OnlyChanges s t may) (a : Word) :
    OnlyChanges s (t.setPc a) (fun p => p = .pc ∨ may p) := by
  intro p hp
  obtain ⟨hpc, hrest⟩ := not_or.1 hp
  exact (h p hrest).setPc hpc a

/-- A part that changed is one that may change. -/
theorem OnlyChanges.of_not_same (h : OnlyChanges s t may) {p : Part} (hne : ¬ Same s t p) : may p :=
  by_contra fun hp => hne (h p hp)

end

section
variable (s : State)

theorem State.setI_onlyChanges (a : Word) : OnlyChanges s (s.setI a) (fun p => p = .i) := by
  intro p hp
  cases p with
  | i => exact absurd rfl hp
  | dispSize => exact ⟨rfl, rfl⟩
  | _ => rfl

theorem State.setDT_onlyChanges (b : Byte) : OnlyChanges s (s.setDT b) (fun p => p = .dt) := by
  intro p hp
  cases p with
  | dt => exact absurd rfl hp
  | dispSize => exact ⟨rfl, rfl⟩
  | _ => rfl

theorem State.setST_onlyChanges (b : Byte) : OnlyChanges s (s.setST b) (fun p => p = .st) := by
  intro p hp
  cases p with
  | st => exact absurd rfl hp
  | dispSize => exact ⟨rfl, rfl⟩
  | _ => rfl

theorem State.takeRnd_onlyChanges : OnlyChanges s s.takeRnd (fun p => p = .rndCount) := by
  intro p hp
  cases p with
  | rndCount => exact absurd rfl hp
  | dispSize => exact ⟨rfl, rfl⟩
  | _ => rfl

theorem State.armWait_onlyChanges (x : RegIdx) :
    OnlyChanges s (s.armWait x) (fun p => p = .keyReg ∨ p = .mode) := by
  intro p hp
  cases p with
  | keyReg | mode => exact absurd (by simp) hp
  | dispSize => exact ⟨rfl, rfl⟩
  | _ => rfl

/-- The frame of a redraw by a buffer of the same size. -/
theorem State.redraw_onlyChanges {d : Display} (hw : d.width = s.disp.width) (hh : d.height = s.disp.height) :
    OnlyChanges s (s.redraw d) (fun p => p = .updateScreen ∨ ∃ q, p = .pixel q) := by
  intro p hp
  cases p with
  | updateScreen | pixel => exact absurd (by simp) hp
  | dispSize => exact ⟨hw, hh⟩
  | _ => rfl

theorem State.loadV_onlyChanges (x : RegIdx) : OnlyChanges s (s.loadV x) (fun p => ∃ r ≤ x, p = .v r) := by
  intro p hp
  cases p with
  | v r =>
    have hr : ¬ r ≤ x := fun hle => hp ⟨r, hle, rfl⟩
    rw [Same, State.loadV_readV, if_neg hr]
  | _ => simp [Same]

end

/-- The frame of a pop. -/
theorem State.pop_onlyChanges {s t : State} {a : Word} (h : s.pop = some (a, t)) :
    OnlyChanges s t (fun p => p = .sp) := by
  obtain ⟨_, -, rfl⟩ := State.pop_eq_some h
  intro p hp
  cases p with
  | sp => exact absurd rfl hp
  | dispSize => exact ⟨rfl, rfl⟩
  | _ => rfl

/-! ### What executing an instruction can do -/

/-- The state in which an instruction that raises no fault ends, by the kind of its writes. Each kind that several
instructions share asks that the rule of `i` lists the parts it writes. -/
inductive Completes (s : State) : Instr → State → Prop where
  | setPc {i : Instr} (a : Word) (hpc : writes s i .pc) : Completes s i (s.setPc a)
  | ret (hd : 0 < s.depth.val) :
      Completes s .ret (State.setPc { s with depth := ⟨s.depth.val - 1, by omega⟩ } (s.stack[s.depth.val - 1] + 2))
  | call (nnn : Addr12) (hd : s.depth.val < 16) :
      Completes s (.call nnn)
        (State.setPc { s with stack := s.stack.set s.depth.val s.pc, depth := ⟨s.depth.val + 1, by omega⟩ } (address nnn))
  | setV {i : Instr} {x : RegIdx} (b : Byte) (hpc : writes s i .pc) (hx : writes s i (.v x)) :
      Completes s i (s.writeV x b).advance
  | setFlagAndV {i : Instr} {x : RegIdx} (flag b : Byte) (hpc : writes s i .pc) (hx : writes s i (.v x))
      (hvf : writes s i (.v vf)) : Completes s i ((s.writeV vf flag).writeV x b).advance
  | rnd (x : RegIdx) (kk b : Byte) : Completes s (.rnd x kk) (s.takeRnd.writeV x b).advance
  | setI {i : Instr} (a : Word) (hpc : writes s i .pc) (hi : writes s i .i) : Completes s i (s.setI a).advance
  | cls : Completes s .cls (s.redraw s.disp.clear).advance
  | drw (x y : RegIdx) (n : Nat) (flag : Byte) (ps : List Pixel) :
      Completes s (.drw x y n) ((s.writeV vf flag).redraw (s.disp.draw ps).1).advance
  | ldVxK (x : RegIdx) : Completes s (.ldVxK x) (s.armWait x).advance
  | ldDTVx (x : RegIdx) : Completes s (.ldDTVx x) (s.setDT (s.readV x)).advance
  | ldSTVx (x : RegIdx) : Completes s (.ldSTVx x) (s.setST (s.readV x)).advance
  | store {i : Instr} (bs : List Byte) (hpc : writes s i .pc)
      (hmem : ∀ k < bs.length, writes s i (.mem (s.i.toNat + k))) :
      Completes s i (s.setMem (Memory.writeBytes s.mem s.i.toNat bs)).advance
  | loadRegs (x : RegIdx) : Completes s (.loadRegs x) (s.loadV x).advance

section
variable {i : Instr} {s t u : State}

/-- An instruction that answers one state, whatever `s` holds. -/
theorem completes_of_next (h : (.next t : Result) = .next u) (hc : Completes s i t) :
    (∃ c w, u = s.raise c w) ∨ Completes s i u := by
  cases h
  exact .inr hc

theorem completes_of_within {n : Nat} (h : s.within n t = .next u) (hc : Completes s i t) :
    (∃ c w, u = s.raise c w) ∨ Completes s i u := by
  obtain ⟨-, rfl⟩ | ⟨-, rfl⟩ := State.within_cases h
  · exact .inl ⟨_, _, rfl⟩
  · exact .inr hc

theorem completes_of_skipOnKey {x : RegIdx} {want : Bool} (h : s.skipOnKey x want = .next u)
    (hpc : writes s i .pc) : (∃ c w, u = s.raise c w) ∨ Completes s i u := by
  obtain ⟨-, rfl⟩ | ⟨hk, rfl⟩ := State.skipOnKey_cases h
  · exact .inl ⟨_, _, rfl⟩
  · exact .inr (.setPc _ hpc)

theorem completes_of_ret (h : execRet s = .next u) : (∃ c w, u = s.raise c w) ∨ Completes s .ret u := by
  unfold execRet at h
  split at h
  · cases h
    exact .inl ⟨_, _, rfl⟩
  · next hpop =>
    obtain ⟨hd, rfl, rfl⟩ := State.pop_eq_some hpop
    exact completes_of_next h (.ret hd)

theorem completes_of_call {nnn : Addr12} (h : execCall nnn s = .next u) :
    (∃ c w, u = s.raise c w) ∨ Completes s (.call nnn) u := by
  unfold execCall at h
  split at h
  · cases h
    exact .inl ⟨_, _, rfl⟩
  · next hpush =>
    obtain ⟨hd, rfl⟩ := State.push_eq_some hpush
    exact completes_of_next h (.call nnn hd)

/-- Every instruction raises a fault or makes the writes of one of the kinds of `Completes`. -/
theorem exec_raises_or_completes (h : exec i s = .next u) : (∃ c w, u = s.raise c w) ∨ Completes s i u := by
  cases i with
  | ret => exact completes_of_ret h
  | call => exact completes_of_call h
  | skp | sknp => exact completes_of_skipOnKey h rfl
  | stub7 | stubE =>
    cases h
    exact .inl ⟨_, _, rfl⟩
  | jp | jpV0 | seImm | sneImm | seReg | sneReg => exact completes_of_next h (.setPc _ rfl)
  | ldImm | addImm | ldReg | orReg | andReg | xorReg | ldVxDT =>
    exact completes_of_next h (.setV _ (.inl rfl) (.inr rfl))
  | addReg | subReg | shr =>
    exact completes_of_next h (.setFlagAndV _ _ (.inl rfl) (.inr (.inl rfl)) (.inr (.inr rfl)))
  | ldI | addI | ldF => exact completes_of_next h (.setI _ (.inl rfl) (.inr rfl))
  | rnd => exact completes_of_next h (.rnd ..)
  | cls => exact completes_of_next h .cls
  | drw => exact completes_of_within h (.drw ..)
  | ldVxK => exact completes_of_next h (.ldVxK _)
  | ldDTVx => exact completes_of_next h (.ldDTVx _)
  | ldSTVx => exact completes_of_next h (.ldSTVx _)
  | ldB => exact completes_of_within h (.store _ (.inl rfl) fun k hk => .inr ⟨k, hk, rfl⟩)
  | storeRegs =>
    refine completes_of_within h (.store _ (.inl rfl) fun k hk => .inr ⟨k, ?_, rfl⟩)
    rw [Memory.block_length] at hk
    exact Nat.le_of_lt_succ hk
  | loadRegs => exact completes_of_within h (.loadRegs _)

/-- An instruction that completes writes only the parts its rule lists. -/
theorem Completes.onlyChanges (h : Completes s i u) : OnlyChanges s u (writes s i) := by
  cases h with
  | setPc a hpc =>
    refine (s.setPc_onlyChanges a).mono ?_
    rintro p rfl
    exact hpc
  | ret hd => exact (State.pop_onlyChanges (s := s) (dif_pos hd)).setPc _
  | call nnn hd =>
    refine ((State.push_onlyChanges (k := ⟨s.depth.val, hd⟩) rfl (dif_pos hd)).setPc _).mono ?_
    rintro p (rfl | rfl | rfl)
    · exact .inl rfl
    · exact .inr (.inl rfl)
    · exact .inr (.inr ⟨_, rfl, rfl⟩)
  | setV b hpc hx =>
    refine (s.writeV_onlyChanges _ b).advance.mono ?_
    rintro p (rfl | rfl)
    · exact hpc
    · exact hx
  | setFlagAndV flag b hpc hx hvf =>
    refine ((s.writeV_onlyChanges vf flag).trans (State.writeV_onlyChanges _ _ b)).advance.mono ?_
    rintro p (rfl | rfl | rfl)
    · exact hpc
    · exact hvf
    · exact hx
  | rnd x kk b =>
    refine (s.takeRnd_onlyChanges.trans (State.writeV_onlyChanges _ x b)).advance.mono ?_
    rintro p (rfl | rfl | rfl)
    · exact .inl rfl
    · exact .inr (.inr rfl)
    · exact .inr (.inl rfl)
  | setI a hpc hi =>
    refine (s.setI_onlyChanges a).advance.mono ?_
    rintro p (rfl | rfl)
    · exact hpc
    · exact hi
  | cls => exact (s.redraw_onlyChanges (Display.clear_width _) (Display.clear_height _)).advance
  | drw x y n flag ps =>
    exact ((s.writeV_onlyChanges vf flag).trans
      (State.redraw_onlyChanges _ (Display.draw_width ..) (Display.draw_height ..))).advance
  | ldVxK x => exact (s.armWait_onlyChanges x).advance
  | ldDTVx x => exact (s.setDT_onlyChanges _).advance
  | ldSTVx x => exact (s.setST_onlyChanges _).advance
  | store bs hpc hmem =>
    refine (s.setMem_writeBytes_onlyChanges _ bs).advance.mono ?_
    rintro p (rfl | ⟨k, hk, rfl⟩)
    · exact hpc
    · exact hmem k hk
  | loadRegs x => exact (s.loadV_onlyChanges x).advance

/-- In Running mode an instruction raises its own fault, or completes and is not halted. -/
theorem exec_cases (hm : s.mode = .running) (h : exec i s = .next u) :
    (∃ c, mayRaise i = some c ∧ u = s.raise c (if c = .unimplementedOpcode then encode i else 0)) ∨
      (u.mode ≠ .halted ∧ Completes s i u) := by
  obtain ⟨u', hu', hcase⟩ := exec_completesOrRaises hm i
  cases hu'.symm.trans h
  obtain hne | hraise := hcase
  · refine .inr ⟨hne, (exec_raises_or_completes h).resolve_left ?_⟩
    rintro ⟨c, w, rfl⟩
    exact hne rfl
  · exact .inl hraise

end

/-- Settles O51: a fault is fault entry, and an instruction that completes has the frame of its rule. -/
theorem noUnlistedEffects : Obligations.NoUnlistedEffects := by
  intro i s hm
  obtain ⟨u, hu, -⟩ := exec_completesOrRaises hm i
  refine ⟨u, hu, ?_⟩
  obtain ⟨c, -, rfl⟩ | ⟨hne, hc⟩ := exec_cases hm hu
  · exact .inl ⟨rfl, s.raise_onlyChanges _ _⟩
  · exact .inr ⟨hne, hc.onlyChanges⟩

/-! ### What a Step can do -/

/-- The state a Step from `s` ends in, by what the Step did. -/
inductive StepEffect (s : State) : State → Prop where
  | idle (hm : s.mode ≠ .running) : StepEffect s s
  | storesKey (hm : s.mode = .waitingForKey) (k : RegIdx) :
      StepEffect s (s.writeV s.keyReg (BitVec.ofNat 8 k.val)).resume
  | raises (hm : s.mode = .running) {c : FaultCause} (hc : c ≠ .none) :
      StepEffect s (s.raise c (if c = .unimplementedOpcode then wordAtPc s else 0))
  | executes {i : Instr} {u : State} (hi : InstrAt s i) (hu : exec i s = .next u) (hne : u.mode ≠ .halted)
      (hc : Completes s i u) : StepEffect s u.tick

section
variable {s t : State}

theorem mayRaise_ne_none {i : Instr} {c : FaultCause} (h : mayRaise i = some c) : c ≠ .none := by
  rintro rfl
  cases i <;> simp [mayRaise] at h

/-- The Step of the instruction at pc. -/
theorem step_effect_of_instrAt {i : Instr} (hi : InstrAt s i) (h : step s = .next t) : StepEffect s t := by
  obtain ⟨u, hu, hstep⟩ := step_executes hi
  cases hstep.symm.trans h
  obtain ⟨c, hc, rfl⟩ | ⟨hne, hc⟩ := exec_cases hi.1 hu
  · obtain ⟨hm, -, hdec⟩ := hi
    obtain ⟨-, henc⟩ := encodeOfDecodeIsWord _ _ hdec
    rw [State.retire_halted (State.raise_mode ..), henc]
    exact .raises hm (mayRaise_ne_none hc)
  · rw [State.retire_completed hne]
    exact .executes hi hu hne hc

/-- Everything a Step can do (40_step_cycle.md R100), each fault with its word. -/
theorem step_effect (h : step s = .next t) : StepEffect s t := by
  cases hm : s.mode with
  | halted =>
    cases (step_of_halted hm).symm.trans h
    exact .idle (by simp [hm])
  | waitingForKey =>
    cases (step_of_waiting hm).symm.trans h
    obtain ⟨-, hp⟩ | ⟨k, -, -, hp⟩ := s.pollKeys_cases
    · rw [hp]
      exact .idle (by simp [hm])
    · rw [hp]
      exact .storesKey hm k
  | running =>
    obtain hpc | hpc := Nat.lt_or_ge 4094 s.pc.toNat
    · cases (step_of_pc_gt hm hpc).symm.trans h
      exact .raises (c := .memoryOutOfBounds) hm nofun
    · cases hd : decode (wordAtPc s) with
      | error e =>
        cases (step_of_decode_error hm hpc hd).symm.trans h
        exact .raises (c := .unimplementedOpcode) hm nofun
      | ok i => exact step_effect_of_instrAt ⟨hm, hpc, hd⟩ h

end

/-! ### Who writes which part -/

section
variable {s t u : State} {i : Instr}

/-- The parts of the state no Step writes, and the redraw flag, which no Step clears. -/
def KeepsHostState (s t : State) : Prop :=
  t.keys = s.keys ∧ t.romSize = s.romSize ∧ t.disp.width = s.disp.width ∧ t.disp.height = s.disp.height ∧
    t.font = s.font ∧ (s.updateScreen = true → t.updateScreen = true)

theorem Completes.keepsHostState (h : Completes s i u) : KeepsHostState s u := by
  cases h with
  | cls => exact ⟨rfl, rfl, rfl, rfl, rfl, fun _ => rfl⟩
  | drw => exact ⟨rfl, rfl, Display.draw_width .., Display.draw_height .., rfl, fun _ => rfl⟩
  | loadRegs => simp [KeepsHostState]
  | _ => exact ⟨rfl, rfl, rfl, rfl, rfl, id⟩

/-- The rules that list bytes of Memory. -/
theorem writes_mem {a : Nat} (h : writes s i (.mem a)) :
    ∃ x : RegIdx, (i = .ldB x ∧ s.i.toNat ≤ a ∧ a ≤ s.i.toNat + 2) ∨
      (i = .storeRegs x ∧ s.i.toNat ≤ a ∧ a ≤ s.i.toNat + x.val) := by
  cases i with
  | ldB x =>
    obtain ⟨k, hk, hp⟩ := h.resolve_left nofun
    cases hp
    exact ⟨x, .inl ⟨rfl, by omega, by omega⟩⟩
  | storeRegs x =>
    obtain ⟨k, hk, hp⟩ := h.resolve_left nofun
    cases hp
    exact ⟨x, .inr ⟨rfl, by omega, by omega⟩⟩
  | _ => simp [writes] at h

theorem Completes.writes_disp (h : Completes s i u) (hne : u.disp ≠ s.disp) :
    i = .cls ∨ ∃ x y n, i = .drw x y n := by
  cases h with
  | cls => exact .inl rfl
  | drw x y n => exact .inr ⟨x, y, n, rfl⟩
  | loadRegs => simp at hne
  | _ => exact absurd rfl hne

theorem Completes.writes_stack (h : Completes s i u) (hne : u.stack ≠ s.stack) : ∃ nnn, i = .call nnn := by
  cases h with
  | call nnn => exact ⟨nnn, rfl⟩
  | loadRegs => simp at hne
  | _ => exact absurd rfl hne

/-- The rules that list `I`. -/
theorem writes_i (h : writes s i .i) : (∃ nnn, i = .ldI nnn) ∨ (∃ x, i = .addI x) ∨ ∃ x, i = .ldF x := by
  cases i with
  | ldI nnn => exact .inl ⟨nnn, rfl⟩
  | addI x => exact .inr (.inl ⟨x, rfl⟩)
  | ldF x => exact .inr (.inr ⟨x, rfl⟩)
  | _ => simp [writes] at h

end

/-- Settles O52: by what the Step did; an executed instruction keeps the host's parts whatever the kind of its writes. -/
theorem stepLeavesHostState : Obligations.StepLeavesHostState := by
  intro s t h
  cases step_effect h with
  | executes _ _ _ hc => exact hc.keepsHostState
  | idle | storesKey | raises => exact ⟨rfl, rfl, rfl, rfl, rfl, id⟩

/-- Settles O53: a byte that changed is listed by the rule of the instruction the Step executed. -/
theorem memoryWrittenOnlyByStores : Obligations.MemoryWrittenOnlyByStores := by
  intro s t a h hne
  cases step_effect h with
  | executes hi _ _ hc =>
    obtain ⟨x, ⟨rfl, hrange⟩ | ⟨rfl, hrange⟩⟩ := writes_mem (hc.onlyChanges.of_not_same (p := .mem a) hne)
    · exact ⟨x, .inl ⟨hi, hrange⟩⟩
    · exact ⟨x, .inr ⟨hi, hrange⟩⟩
  | idle | storesKey | raises => exact absurd rfl hne

/-- Settles O54: only an executed instruction writes these parts; which one is read off the kind of its writes for the
display and the stack entries, and off its rule for `I`. -/
theorem writersOfDisplayStackIndex : Obligations.WritersOfDisplayStackIndex := by
  intro s t h
  cases step_effect h with
  | executes hi _ _ hc =>
    refine ⟨fun hne => ⟨_, hi, hc.writes_disp hne⟩, fun hne => ?_, fun hne => ?_⟩
    · obtain ⟨nnn, rfl⟩ := hc.writes_stack hne
      exact ⟨nnn, hi⟩
    · exact ⟨_, hi, writes_i (hc.onlyChanges.of_not_same (p := .i) hne)⟩
  | idle | storesKey | raises => exact ⟨absurd rfl, absurd rfl, absurd rfl⟩

end Sys2Proof.Machine
end

