-- ==== Sys2Proof/Proofs/StepReports.lean ====
section
/-! PROOF. The Step beside its writes: that it answers, its timer decrement (40_step_cycle.md R97), what it returns (R99),
the fault it enters (60_exceptions.md R206, R208), and the key wait (R93). -/

namespace Sys2Proof.Machine

open Sys2Proof.Claims

/-! ### Each mode's Step -/

/-- Settles O17: the Step of each mode is known to answer. -/
theorem stepAlwaysAnswers : Obligations.StepAlwaysAnswers := by
  intro s
  cases hm : s.mode with
  | running =>
    obtain ⟨t, ht, -⟩ := step_of_running hm
    exact ⟨t, ht⟩
  | waitingForKey => exact ⟨_, step_of_waiting hm⟩
  | halted => exact ⟨s, step_of_halted hm⟩

/-- Settles O6: the end of the Step of an executed instruction, by its mode. -/
theorem stepRunsDecodedInstruction : Obligations.StepRunsDecodedInstruction := by
  intro s i hi
  obtain ⟨u, hu, hstep⟩ := step_executes hi
  exact ⟨u, hu, hstep⟩

/-- The Step of an instruction that completes: its writes, then the tick (R97). -/
theorem step_of_exec {i : Instr} {s u : State} (hi : InstrAt s i) (hu : exec i s = .next u) (hne : u.mode ≠ .halted) :
    step s = .next u.tick := by
  rw [step_of_instrAt hi, hu, finish, State.retire_completed hne]

/-! ### What a Step returns -/

section
variable {s t : State}

theorem stepResult_of_next (h : step s = .next t) : stepResult s = some (resultOf s t) := by
  simp [stepResult, h]

/-- A Step that ends halted returns the latched error. -/
theorem stepResult_of_halted (h : step s = .next t) (ht : t.mode = .halted) :
    stepResult s = some (.err { cause := t.faultCause, word := t.faultWord }) := by
  simp [stepResult_of_next h, resultOf, ht]

/-- A Step that does not end halted returns the outcome. -/
theorem stepResult_of_not_halted (h : step s = .next t) (ht : t.mode ≠ .halted) :
    stepResult s = some (.ok
      { displayChanged := (s.nextInstr.map drew).getD false
        waitingForKey := decide (t.mode = .waitingForKey) }) := by
  simp [stepResult_of_next h, resultOf, ht]

/-- A machine that does not run executes no instruction. -/
theorem State.nextInstr_eq_none (hm : s.mode ≠ .running) : s.nextInstr = none := by
  cases h : s.mode with
  | running => exact absurd h hm
  | waitingForKey | halted => simp [State.nextInstr, h]

/-- The instruction that the report speaks of is the one at pc. -/
theorem State.nextInstr_eq_some_iff {i : Instr} : s.nextInstr = some i ↔ InstrAt s i := by
  by_cases hm : s.mode = .running
  · obtain hpc | hpc := Nat.lt_or_ge 4094 s.pc.toNat
    · have hf := State.fetch_eq_none.2 hpc
      simp [State.nextInstr, InstrAt, hm, hf, hpc]
    · have hdec : decodeBytes (Memory.read s.mem s.pc.toNat) (Memory.read s.mem (s.pc.toNat + 1)) =
          decode (wordAtPc s) := rfl
      cases hd : decode (wordAtPc s) <;>
        simp [State.nextInstr, InstrAt, hm, hpc, State.fetch_eq_some hpc, hdec, hd]
  · simp [State.nextInstr_eq_none hm, InstrAt, hm]

theorem drew_iff {i : Instr} : drew i = true ↔ i = .cls ∨ ∃ x y n, i = .drw x y n := by
  cases i <;> simp [drew]

end

/-- Settles O8: the Step is the identity, and what it returns is read off the state it ends in. -/
theorem haltedStepIsIdentity : Obligations.HaltedStepIsIdentity :=
  fun _ hm => ⟨step_of_halted hm, stepResult_of_halted (step_of_halted hm) hm⟩

/-- Settles O12: both fields of the outcome, the second by the instruction at pc. -/
theorem stepOutcomeReports : Obligations.StepOutcomeReports := by
  intro s t h ht
  refine ⟨_, stepResult_of_not_halted h ht, by simp, ?_⟩
  simp [← State.nextInstr_eq_some_iff, ← drew_iff, Option.getD_eq_iff]

/-! ### The key wait -/

/-- Settles O9: the poll finds no key, or the key that is down with every smaller one up. -/
theorem waitStoresSmallestKey : Obligations.WaitStoresSmallestKey := by
  intro s hm
  have hnone : s.nextInstr = none := State.nextInstr_eq_none (by simp [hm])
  refine ⟨fun hup => ?_, fun k hk hup => ?_⟩
  · have hpoll : s.pollKeys = s := by simp [State.pollKeys, State.pressedKey_eq_none.2 hup]
    have hstep : step s = .next s := by rw [step_of_waiting hm, hpoll]
    refine ⟨hstep, ?_⟩
    rw [stepResult_of_not_halted hstep (by simp [hm]), hnone]
    simp [hm]
  · have hpoll : s.pollKeys = (s.writeV s.keyReg (BitVec.ofNat 8 k.val)).resume := by
      simp [State.pollKeys, State.pressedKey_eq_some.2 ⟨hk, hup⟩]
    have hstep : step s = .next (s.writeV s.keyReg (BitVec.ofNat 8 k.val)).resume := by
      rw [step_of_waiting hm, hpoll]
    refine ⟨_, hstep, by simp, rfl, s.writeV_resume_onlyChanges _ _, ?_⟩
    rw [stepResult_of_not_halted hstep (by simp), hnone]
    simp

/-! ### Faults -/

/-- Settles O14: in Running mode the only Step that ends halted is fault entry. -/
theorem faultEntryWritesOnlyFaultRegisters : Obligations.FaultEntryWritesOnlyFaultRegisters := by
  intro s t hm h ht
  have hresult := stepResult_of_halted h ht
  cases step_effect h with
  | idle hne => exact absurd hm hne
  | storesKey hw => simp [hm] at hw
  | raises _ hc => exact ⟨s.raise_onlyChanges _ _, hc, rfl, hresult⟩
  | executes _ _ hne => exact absurd ht hne

/-- Settles O15: the fetch's fault, the decoder's, and the one `exec` raises. -/
theorem faultPriorityOrder : Obligations.FaultPriorityOrder := by
  intro s t hm h
  refine ⟨fun hpc => ?_, fun hpc hill => ?_, fun i hi ht => ?_⟩
  · cases (step_of_pc_gt hm hpc).symm.trans h
    exact ⟨rfl, rfl⟩
  · cases ((illegalWordFaults s hm hpc).1 hill).symm.trans h
    exact ⟨rfl, rfl⟩
  · obtain ⟨u, hu, hstep⟩ := step_executes hi
    cases hstep.symm.trans h
    obtain ⟨c, hc, rfl⟩ | ⟨hne, -⟩ := exec_cases hm hu
    · rw [State.retire_halted (State.raise_mode ..), hc, State.raise_faultCause]
    · rw [State.retire_completed hne] at ht
      exact absurd ht hne

/-! ### Timers -/

/-- Settles O10: the tick of an instruction that completes, and no tick in any other Step. -/
theorem timersDecrementPerInstruction : Obligations.TimersDecrementPerInstruction := by
  constructor
  · intro s i hi
    obtain ⟨u, hu, hstep⟩ := step_executes hi
    refine ⟨u, u.retire, hu, hstep, fun hne => ?_⟩
    rw [State.retire_completed hne]
    exact ⟨countDown_toNat u.dt, countDown_toNat u.st⟩
  · intro s t h hmode
    cases step_effect h with
    | idle | storesKey | raises => exact ⟨rfl, rfl⟩
    | executes hi _ hne => exact absurd hi.1 (hmode.resolve_right hne)

section
variable {s t u : State} {i : Instr}

/-- The rules of only two instructions list a timer. -/
theorem Completes.keeps_timers (h : Completes s i u) (hdt : ∀ x, i ≠ .ldDTVx x) (hst : ∀ x, i ≠ .ldSTVx x) :
    u.dt = s.dt ∧ u.st = s.st := by
  have hframe := h.onlyChanges
  constructor
  · refine hframe .dt ?_
    cases i with
    | ldDTVx x => exact absurd rfl (hdt x)
    | _ => simp [writes]
  · refine hframe .st ?_
    cases i with
    | ldSTVx x => exact absurd rfl (hst x)
    | _ => simp [writes]

/-- One executed instruction that sets no timer. -/
theorem step_timers (hi : InstrAt s i) (hdt : ∀ x, i ≠ .ldDTVx x) (hst : ∀ x, i ≠ .ldSTVx x) (h : step s = .next t)
    (ht : t.mode ≠ .halted) : t.dt.toNat = s.dt.toNat - 1 ∧ t.st.toNat = s.st.toNat - 1 := by
  obtain ⟨u, hu, hstep⟩ := step_executes hi
  cases hstep.symm.trans h
  obtain ⟨c, -, rfl⟩ | ⟨hne, hc⟩ := exec_cases hi.1 hu
  · rw [State.retire_halted (State.raise_mode ..)] at ht
    exact absurd rfl ht
  · obtain ⟨hdt', hst'⟩ := hc.keeps_timers hdt hst
    rw [State.retire_completed hne, State.tick_dt, State.tick_st, hdt', hst']
    exact ⟨countDown_toNat s.dt, countDown_toNat s.st⟩

end

/-- Settles O50, by induction on the run. -/
theorem timersCountInstructions : Obligations.TimersCountInstructions := by
  intro n s t h
  induction h with
  | zero => simp
  | succ i hi hdt hst hs ht _ ih =>
    obtain ⟨hdt', hst'⟩ := step_timers hi hdt hst hs ht
    omega

end Sys2Proof.Machine
end

