-- ==== Sys2Proof/Proofs/Invariant.lean ====
section
/-! PROOF. The invariant (`Inv`): that it holds after reset, that every Step and every other move of the host keeps it, and
so that every reachable state meets it. -/

namespace Sys2Proof.Machine

open Sys2Proof.Claims

/-! ### Reset -/

theorem State.resetWith_inv {w h : Nat} (hw : 1 ≤ w) (hh : 1 ≤ h) (font : Font) : Inv (State.resetWith w h font) where
  mem_wf := Memory.loadFont_wf rfl font
  disp_wf := Display.wf_iff.2 ⟨⟨hw, hh⟩, List.Pairwise.nil, nofun⟩
  cause_iff := by simp [State.resetWith]
  word_zero := fun _ => rfl
  stack_le := fun k => by simp [State.resetWith]
  pc_le := by simp [State.resetWith, Config.progBase]
  rom_le := Nat.zero_le _

/-- Settles O18: the defaults are one choice of W, H and FONT. -/
theorem resetMeetsInvariant : Obligations.ResetMeetsInvariant := by
  constructor
  · rw [State.reset_eq]
    exact State.resetWith_inv (by decide) (by decide) _
  · intro w h font hw hh
    exact State.resetWith_inv hw hh font

/-! ### The bound on pc (10_state.md R25) -/

section
variable {s : State}

theorem word_add_toNat_le {a b : Word} {m n : Nat} (ha : a.toNat ≤ m) (hb : b.toNat ≤ n) : (a + b).toNat ≤ m + n := by
  rw [BitVec.toNat_add]
  exact (Nat.mod_le _ _).trans (Nat.add_le_add ha hb)

theorem afterSkip_toNat_le {c : Prop} [Decidable c] (hpc : s.pc.toNat ≤ 4094) : (afterSkip s c).toNat ≤ 4098 := by
  unfold afterSkip
  split
  · exact word_add_toNat_le (n := 4) hpc (by decide)
  · exact (word_add_toNat_le (n := 2) hpc (by decide)).trans (by decide)

theorem stack_getD_toNat_le {m : Nat} (hstack : ∀ k : RegIdx, (s.stack[k]).toNat ≤ m) (n : Nat) :
    (s.stack.toList.getD n 0).toNat ≤ m := by
  by_cases hn : n < 16
  · simpa [hn] using hstack ⟨n, hn⟩
  · simp [Nat.not_lt.1 hn]

/-- The largest target is that of `Bnnn`. -/
theorem npc_toNat_le (hpc : s.pc.toNat ≤ 4094) (hstack : ∀ k : RegIdx, (s.stack[k]).toNat ≤ 4094) (i : Instr) :
    (npc s i).toNat ≤ 0x10FE := by
  have hnext : (s.pc + 2).toNat ≤ 4096 := word_add_toNat_le (n := 2) hpc (by decide)
  cases i with
  | jp nnn | call nnn =>
    have hn := nnn.isLt
    exact (Nat.mod_le ..).trans (by omega)
  | jpV0 nnn =>
    have hn := nnn.isLt
    have hv := (s.readV 0).isLt
    exact (Nat.mod_le ..).trans (by omega)
  | ret => exact (word_add_toNat_le (n := 2) (stack_getD_toNat_le hstack _) (by decide)).trans (by decide)
  | seImm | sneImm | seReg | sneReg | skp | sknp => exact (afterSkip_toNat_le hpc).trans (by decide)
  | _ => exact hnext.trans (by decide)

end

/-! ### Every Step keeps the invariant -/

section
variable {s t u : State} {i : Instr}

theorem Completes.mem_wf (h : Completes s i u) (hwf : Memory.wf s.mem = true) : Memory.wf u.mem = true := by
  cases h with
  | store bs => exact Memory.writeBytes_wf hwf _ bs
  | loadRegs => simpa using hwf
  | _ => exact hwf

theorem Completes.disp_wf (h : Completes s i u) (hwf : s.disp.wf = true) : u.disp.wf = true := by
  cases h with
  | cls => exact Display.clear_wf hwf
  | drw x y n flag ps => exact Display.draw_wf hwf ps
  | loadRegs => simpa using hwf
  | _ => exact hwf

/-- A call pushes its own pc; no other instruction writes a stack entry. -/
theorem Completes.stack_le {m : Nat} (h : Completes s i u) (hpc : s.pc.toNat ≤ m)
    (hstack : ∀ k : RegIdx, (s.stack[k]).toNat ≤ m) (k : RegIdx) : (u.stack[k]).toNat ≤ m := by
  cases h with
  | call nnn hd =>
    have hpush : s.push s.pc = some _ := dif_pos hd
    rw [State.setPc_stack]
    by_cases hk : k = ⟨s.depth.val, hd⟩
    · rw [State.push_stack_top (congrArg Fin.val hk).symm hpush]
      exact hpc
    · rw [State.push_stack_of_ne rfl hpush hk]
      exact hstack k
  | loadRegs => simpa using hstack k
  | _ => exact hstack k

/-- No rule lists the fault registers. -/
theorem Completes.keeps_fault (h : Completes s i u) : u.faultCause = s.faultCause ∧ u.faultWord = s.faultWord := by
  constructor
  · refine h.onlyChanges .faultCause ?_
    cases i <;> simp [writes]
  · refine h.onlyChanges .faultWord ?_
    cases i <;> simp [writes]

theorem Inv.cause_eq_none (h : Inv s) (hm : s.mode ≠ .halted) : s.faultCause = .none :=
  not_not.1 (mt h.cause_iff.1 hm)

/-- Fault entry sets the mode and the two fault registers together (R206). -/
theorem Inv.raise (h : Inv s) {c : FaultCause} (hc : c ≠ .none) (w : Word) :
    Inv (s.raise c (if c = .unimplementedOpcode then w else 0)) :=
  { h with
    cause_iff := ⟨fun _ => rfl, fun _ => hc⟩
    word_zero := fun hne => if_neg hne }

/-- The end of a key wait (R93). -/
theorem Inv.writeV_resume (h : Inv s) (hm : s.mode = .waitingForKey) (x : RegIdx) (b : Byte) :
    Inv (s.writeV x b).resume :=
  { h with cause_iff := by simp [h.cause_eq_none (by simp [hm])] }

/-- An executed instruction that completes. -/
theorem Inv.tick_of_completes (h : Inv s) (hi : InstrAt s i) (hne : u.mode ≠ .halted) (hc : Completes s i u)
    (hpc : u.pc = npc s i) : Inv u.tick := by
  obtain ⟨hm, hle, -⟩ := hi
  obtain ⟨hcause, hword⟩ := hc.keeps_fault
  obtain ⟨-, hrom, -⟩ := hc.keepsHostState
  exact
    { mem_wf := hc.mem_wf h.mem_wf
      disp_wf := hc.disp_wf h.disp_wf
      cause_iff := by simp [hcause, h.cause_eq_none (by simp [hm]), hne]
      word_zero := by simpa [hcause, hword] using h.word_zero
      stack_le := hc.stack_le hle h.stack_le
      pc_le := by simpa [hpc] using npc_toNat_le hle h.stack_le i
      rom_le := by simpa [hrom] using h.rom_le }

end

/-- Settles O19: by what the Step did, the pc of an executed instruction by the table of R98. -/
theorem stepKeepsInvariant : Obligations.StepKeepsInvariant := by
  intro s t hinv h
  cases step_effect h with
  | idle => exact hinv
  | storesKey hm => exact hinv.writeV_resume hm _ _
  | raises _ hc => exact hinv.raise hc _
  | executes hi _ hne hc =>
    obtain ⟨t, ht, hpc⟩ := pcFollowsNpcTable.1 s _ hi
    cases ht.symm.trans h
    exact hinv.tick_of_completes hi hne hc (hpc hne)

/-! ### Every move of the host keeps the invariant -/

section
variable {s : State}

theorem Inv.hostReset (h : Inv s) : Inv s.hostReset := by
  obtain ⟨⟨hw, hh⟩, -⟩ := Display.wf_iff.1 h.disp_wf
  exact { State.resetWith_inv hw hh s.font with }

theorem Inv.loaded (h : Inv s) {bytes : List Byte} (hfit : Config.progBase + bytes.length ≤ Config.memSize) :
    Inv (s.loaded bytes) :=
  { h with
    mem_wf := Memory.writeBytes_wf h.mem_wf _ bytes
    rom_le := Nat.le_sub_of_add_le' hfit }

theorem Inv.boot (h : Inv s) (bytes : List Byte) : Inv (s.boot bytes) := by
  unfold State.boot
  obtain hbig | hfit := Nat.lt_or_ge Config.memSize (Config.progBase + bytes.length)
  · rw [State.loadProgram_eq_error _ hbig]
    exact h.hostReset
  · rw [State.loadProgram_eq_ok _ hfit]
    exact h.hostReset.loaded hfit

theorem Inv.move (h : Inv s) (m : HostMove) : Inv (s.move m) := by
  cases m with
  | step =>
    obtain ⟨t, ht⟩ := stepAlwaysAnswers s
    rw [State.move_step_of_next ht]
    exact stepKeepsInvariant s t h ht
  | setKeyState k b =>
    obtain ⟨_, hmove⟩ | ⟨-, hmove⟩ := s.move_setKeyState_cases k b
    · rw [hmove]
      exact { h with }
    · rw [hmove]
      exact h
  | clearUpdateScreen => exact { h with }
  | reset => exact h.hostReset
  | boot bytes => exact h.boot bytes

theorem Inv.moves (h : Inv s) (ms : List HostMove) : Inv (s.moves ms) := by
  induction ms generalizing s with
  | nil => exact h
  | cons m ms ih => exact ih (h.move m)

end

/-- Settles O20: the invariant holds after reset and every move keeps it. -/
theorem reachableStatesMeetInvariant : Obligations.ReachableStatesMeetInvariant := by
  rintro _ ⟨w, h, font, ms, hw, hh, rfl⟩
  exact (State.resetWith_inv hw hh font).moves ms

end Sys2Proof.Machine
end

