-- ==== Sys2Proof/Proofs/ResetAndHost.lean ====
section
/-! PROOF. Reset (70_reset_and_hazards.md R230 to R232), what the host may do between Steps (40_step_cycle.md R102), and the
placing of a word for the next Step (log 12). -/

namespace Sys2Proof.Machine

open Sys2Proof.Claims

/-! ### The reset state -/

section
variable (w h : Nat) (font : Font)

theorem State.read_resetWith_font (a : Fin 80) : Memory.read (State.resetWith w h font).mem a.val = font[a] :=
  Memory.read_loadFont_inside rfl font a

theorem State.read_resetWith_above {a : Nat} (ha : 80 ≤ a) : Memory.read (State.resetWith w h font).mem a = 0 :=
  (Memory.read_loadFont_outside [] font ha).trans (Memory.unlisted_above ha)

theorem State.wordAtPc_resetWith : wordAtPc (State.resetWith w h font) = 0 := by
  have hhi := State.read_resetWith_above w h font (a := 0x200) (by decide)
  have hlo := State.read_resetWith_above w h font (a := 0x201) (by decide)
  exact congrArg₂ bigEndian hhi hlo

end

/-- Settles O21: the defaults are one choice of W, H and FONT, and the font loaded reads back. -/
theorem resetSourceValues : Obligations.ResetSourceValues :=
  ⟨State.reset_eq, fun w h font => ⟨rfl, rfl, rfl, rfl, rfl, State.read_resetWith_font w h font⟩⟩

/-- Settles O22: the fields of the reset state, and Memory outside the font. -/
theorem resetDecidedValues : Obligations.ResetDecidedValues := by
  rintro w h font _ rfl
  refine ⟨fun x => ?v, rfl, fun k => ?stack, rfl, rfl, fun p => ?pixel, fun k => ?key, rfl, rfl, rfl, rfl, rfl, rfl,
    fun a => State.read_resetWith_above w h font⟩
  case v => simp [State.readV, State.resetWith]
  case stack => simp [State.resetWith]
  case pixel => simp [Display.pixel, State.resetWith]
  case key => simp [State.resetWith]

/-- Settles O24: the word at 0x200 is 0, which the decoder refuses. -/
theorem unloadedMachineFaults : Obligations.UnloadedMachineFaults := by
  intro w h font
  have hword := State.wordAtPc_resetWith w h font
  have hpc : (State.resetWith w h font).pc.toNat ≤ 4094 := by simp [State.resetWith, Config.progBase]
  have hdec : decode (wordAtPc (State.resetWith w h font)) = .error .group0 := by
    rw [hword]
    rfl
  rw [step_of_decode_error rfl hpc hdec, hword, raise_eq_halts]

/-- Settles O58: the host's reset differs from the reset state in the count of draws alone. -/
theorem hostResetRestoresResetState : Obligations.HostResetRestoresResetState := by
  intro s
  refine ⟨fun p hp => ?_, rfl, State.read_resetWith_font s.disp.width s.disp.height s.font⟩
  cases p with
  | rndCount => exact absurd rfl hp
  | dispSize => exact ⟨rfl, rfl⟩
  | _ => rfl

/-! ### The host's actions -/

section
variable (s : State)

/-- The frame of `setKeyState`. -/
theorem State.setKeys_onlyChanges {k : Nat} (hk : k < 16) (b : Bool) :
    OnlyChanges s { s with keys := s.keys.set k b } (fun p => p = .key ⟨k, hk⟩) := by
  intro p hp
  cases p with
  | key j =>
    have hne : k ≠ j.val := fun e => hp (congrArg Part.key (Fin.ext e.symm))
    simp [Same, Vector.getElem_set_ne, hne]
  | dispSize => exact ⟨rfl, rfl⟩
  | _ => rfl

theorem State.clearUpdateScreen_onlyChanges : OnlyChanges s s.clearUpdateScreen (fun p => p = .updateScreen) := by
  intro p hp
  cases p with
  | updateScreen => exact absurd rfl hp
  | dispSize => exact ⟨rfl, rfl⟩
  | _ => rfl

end

/-- Settles O25: `setKeyState` is refused or sets one key, and the other actions are as they are defined. -/
theorem hostActionsBetweenSteps : Obligations.HostActionsBetweenSteps := by
  intro s k b
  refine ⟨fun hk => ?_, fun hk => ?_, fun _ _ => rfl, by simp [State.isPaused], rfl, s.clearUpdateScreen_onlyChanges⟩
  · have hnone : s.setKeyState k b = none := dif_neg (by omega)
    exact ⟨hnone, by simp [State.move, hnone]⟩
  · have hsome : s.setKeyState k b = some { s with keys := s.keys.set k b } := dif_pos hk
    refine ⟨_, hsome, by simp [State.move, hsome], by simp, s.setKeys_onlyChanges hk b⟩

/-! ### A word placed for the next Step -/

theorem tableWord_toNat (w : Word) : tableWord 16 w.toNat = w := by
  simp [tableWord, Nat.mod_eq_of_lt w.isLt]

theorem decode_of_decodeTableWord {w : Word} {i : Instr} (h : decodeTableWord 16 w.toNat = some i) :
    decode w = .ok i := by
  have hbytes : decodeBytes (highByte w) (lowByte w) = decode w := congrArg decode (bigEndian_bytes w)
  rw [decodeTableWord, tableWord_toNat, hbytes] at h
  cases hd : decode w with
  | error e => simp [hd] at h
  | ok j => simpa [hd] using h

section
variable {s : State} (hi lo : Byte)

/-- A placed word lies where the fetch reads it. -/
theorem State.placeWord_pc_le (s : State) : (s.placeWord hi lo).pc.toNat ≤ 4094 := by
  simp only [State.placeWord]
  split
  · decide
  · omega

/-- The bytes at the pc of the machine a word was placed in. -/
theorem State.wordAtPc_placeWord (hwf : Memory.wf s.mem = true) : wordAtPc (s.placeWord hi lo) = bigEndian hi lo := by
  have hpc := s.placeWord_pc_le hi lo
  have hread := Memory.read_writeBytes_inside hwf (s.placeWord hi lo).pc.toNat [hi, lo] (Nat.add_le_add_right hpc 2)
  exact congrArg₂ bigEndian (hread 0 (by simp)) (hread 1 (by simp))

end

/-- Settles O26: the two bytes placed at pc read back as the word. -/
theorem placedWordIsExecuted : Obligations.PlacedWordIsExecuted := by
  intro s w i hwf h
  have hdec := decode_of_decodeTableWord h
  refine ⟨hdec, rfl, State.placeWord_pc_le _ _ s, ?_⟩
  rw [State.withFetchWord, State.wordAtPc_placeWord _ _ hwf, tableWord_toNat, bigEndian_bytes]
  exact hdec

end Sys2Proof.Machine
end

