-- ==== Sys2Proof/Proofs/Returns.lean ====
section
/-! PROOF. Returns (41_control_flow.md R110) and their symmetry with calls (95_test_vectors.md S3). -/

namespace Sys2Proof.Machine

open Sys2Proof.Claims

section
variable {s t : State} {k : RegIdx}

/-- `sp = -1` is the empty stack. -/
theorem State.sp_eq_neg_one_iff : s.sp = -1 ↔ s.depth.val = 0 := by
  unfold State.sp
  omega

theorem State.sp_eq_iff : s.sp = (k.val : Int) ↔ s.depth.val = k.val + 1 := by
  unfold State.sp
  omega

theorem State.depth_eq_of_sp_eq (h : s.sp = t.sp) : s.depth = t.depth := by
  unfold State.sp at h
  omega

theorem State.sp_eq_of_depth_eq (h : s.depth = t.depth) : s.sp = t.sp :=
  congrArg (fun d : Fin 17 => (d.val : Int) - 1) h

/-- What is popped is the top entry. -/
theorem State.exists_pop_eq_some (hk : s.depth.val = k.val + 1) :
    ∃ t, s.pop = some (s.stack[k], t) ∧ t.depth.val = k.val := by
  simp [State.pop, hk]

theorem exec_ret_of_pop_none (h : s.pop = none) : exec .ret s = .next (s.raise .stackUnderflow 0) := by
  simp [exec, execRet, h]

theorem exec_ret_of_pop_some {a : Word} (h : s.pop = some (a, t)) : exec .ret s = .next (t.setPc (a + 2)) := by
  simp [exec, execRet, h]

end

/-- Settles O27: a pop fails exactly at `sp = -1`, and a return is a pop followed by the jump past the entry popped. -/
theorem returnPopsCallAddress : Obligations.ReturnPopsCallAddress := by
  intro s
  constructor
  · intro hsp
    rw [← raise_eq_halts]
    exact exec_ret_of_pop_none (State.pop_eq_none.2 (State.sp_eq_neg_one_iff.1 hsp))
  · intro k hsp
    obtain ⟨t, hpop, hdepth⟩ := State.exists_pop_eq_some (State.sp_eq_iff.1 hsp)
    have hnewSp : t.sp = s.sp - 1 := by rw [hsp, State.sp, hdepth]
    exact ⟨t.setPc (s.stack[k] + 2), exec_ret_of_pop_some hpop, rfl, hnewSp, (State.pop_onlyChanges hpop).setPc _⟩

/-- Settles O31: the return pops the entry that the call pushed, its own pc. -/
theorem callReturnSymmetry : Obligations.CallReturnSymmetry := by
  intro s u nnn hsp
  have hdepth : s.depth.val < 16 := by
    unfold State.sp at hsp
    omega
  have htop : s.sp + 1 = ((⟨s.depth.val, hdepth⟩ : RegIdx).val : Int) := State.sp_add_one_eq_iff.2 rfl
  obtain ⟨t, ht, htsp, hentry, -⟩ := (callPushesOwnAddress s nnn).2 _ htop
  refine ⟨t, ht, fun hstack hdep => ?_⟩
  have husp : u.sp = s.sp + 1 := (State.sp_eq_of_depth_eq hdep).trans htsp
  obtain ⟨r, hr, hrpc, hrsp, -⟩ := (returnPopsCallAddress u).2 _ (husp.trans htop)
  refine ⟨r, hr, ?_, State.depth_eq_of_sp_eq (by omega)⟩
  rw [hrpc, hstack, hentry]

end Sys2Proof.Machine
end

