-- ==== Sys2Proof/Proofs/Arithmetic.lean ====
section
/-! PROOF. Arithmetic on the registers (42_load_alu.md): the instructions that write one register, and those that write VF
first and read the registers again (R142). -/

namespace Sys2Proof.Machine

open Sys2Proof.Claims

/-! ### One register written -/

/-- Settles O33: one write of `V[x]` by the sum of bytes. -/
theorem addImmediateWraps : Obligations.AddImmediateWraps := by
  intro s x kk
  obtain ⟨t, ht, hv, hpc, hframe⟩ := exec_setAndAdvance (i := .addImm x kk) (s := s) rfl
  exact ⟨t, ht, by rw [hv, BitVec.toNat_add], hpc, hframe⟩

/-- Settles O34: one write of `V[x]` by the operation on bytes, read bit by bit. -/
theorem logicalOperations : Obligations.LogicalOperations := by
  intro s x y
  refine ⟨?or, ?and, ?xor⟩
  case or =>
    obtain ⟨t, ht, hv, hrest⟩ := exec_setAndAdvance (i := .orReg x y) (s := s) rfl
    exact ⟨t, ht, fun b => by rw [hv, BitVec.getLsbD_or], hrest⟩
  case and =>
    obtain ⟨t, ht, hv, hrest⟩ := exec_setAndAdvance (i := .andReg x y) (s := s) rfl
    exact ⟨t, ht, fun b => by rw [hv, BitVec.getLsbD_and], hrest⟩
  case xor =>
    obtain ⟨t, ht, hv, hrest⟩ := exec_setAndAdvance (i := .xorReg x y) (s := s) rfl
    exact ⟨t, ht, fun b => by rw [hv, BitVec.getLsbD_xor], hrest⟩

/-- Settles O39: the write of `V[x]` after the draw is counted. -/
theorem randomByteIsMasked : Obligations.RandomByteIsMasked := by
  intro s x kk
  have hv : ((s.takeRnd.writeV x (Config.randomByte s.rndCount &&& kk)).advance).readV x =
      Config.randomByte s.rndCount &&& kk := by simp
  refine ⟨_, _, rfl, rfl, fun b => ?_, fun hkk => ?_, rfl, rfl, (Completes.rnd x kk _).onlyChanges⟩
  · rw [hv, BitVec.getLsbD_and]
  · rw [hv, hkk]
    exact BitVec.and_zero

/-! ### VF written first -/

/-- What an instruction answers whose first statement writes `flag` to VF and whose second writes to `V[x]` the value of
`f` on the registers as the first left them. -/
theorem exec_flagThen {i : Instr} {s : State} {flag : Byte} {x : RegIdx} {f : State → Byte}
    (hi : exec i s = s.flagThen flag x f) :
    ∃ t, exec i s = .next t ∧ t.pc = s.pc + 2 ∧ OnlyChanges s t (fun p => p = .pc ∨ p = .v x ∨ p = .v 15) ∧
      t.readV x = f (s.writeV 15 flag) ∧ (x ≠ 15 → t.readV 15 = flag) := by
  have hframe := ((s.writeV_onlyChanges 15 flag).trans
    (State.writeV_onlyChanges _ x (f (s.writeV 15 flag)))).advance
  refine ⟨((s.writeV 15 flag).writeV x (f (s.writeV 15 flag))).advance, hi, rfl, hframe.mono ?_, by simp, fun hx => ?_⟩
  · rintro p (hp | hp | hp)
    · exact .inl hp
    · exact .inr (.inr hp)
    · exact .inr (.inl hp)
  · simp [Ne.symm hx]

/-- A flag is the number 0 or 1. -/
theorem flagByte_decide_toNat (p : Prop) [Decidable p] : (flagByte (decide p)).toNat = if p then 1 else 0 := by
  by_cases hp : p <;> simp [flagByte, hp]

theorem byte_sub_toNat_eq_emod (a b : Byte) : ((a - b).toNat : Int) = ((a.toNat : Int) - b.toNat) % 256 := by
  have ha := a.isLt
  have hb := b.isLt
  rw [BitVec.toNat_sub]
  omega

/-- Settles O35: the operands are read after VF took the carry. -/
theorem addRegisterSetsCarry : Obligations.AddRegisterSetsCarry := by
  intro s x y
  obtain ⟨t, ht, hpc, hframe, hx, hvf⟩ := exec_flagThen (i := .addReg x y) (s := s) (x := x)
    (flag := carryFlag (s.readV x) (s.readV y)) (f := fun t => t.readV x + t.readV y) rfl
  have hcarry : (carryFlag (s.readV x) (s.readV y)).toNat =
      if 255 < (s.readV x).toNat + (s.readV y).toNat then 1 else 0 := flagByte_decide_toNat _
  rw [State.writeV_readV, State.writeV_readV] at hx
  refine ⟨t, ht, hpc, hframe, _, hcarry, fun hx15 => ?_, fun hx15 hy => ?_, fun hx15 hy => ?_, fun hx15 hy => ?_,
    fun hx15 hy => ?_⟩
  · rw [hvf hx15]
  · rw [hx, if_neg hx15, if_neg hy, BitVec.toNat_add]
  · rw [hx, if_neg hx15, if_pos hy, BitVec.toNat_add]
  · subst hx15
    rw [hx, if_pos rfl, if_neg hy, BitVec.toNat_add]
  · subst hx15
    rw [hx, if_pos rfl, if_pos hy, BitVec.toNat_add, hcarry]
    split <;> rfl

/-- Settles O36: the operands are read after VF took the not-borrow. -/
theorem subRegisterSetsNotBorrow : Obligations.SubRegisterSetsNotBorrow := by
  intro s x y
  obtain ⟨t, ht, hpc, hframe, hx, hvf⟩ := exec_flagThen (i := .subReg x y) (s := s) (x := x)
    (flag := notBorrowFlag (s.readV x) (s.readV y)) (f := fun t => t.readV x - t.readV y) rfl
  have hflag : (notBorrowFlag (s.readV x) (s.readV y)).toNat =
      if (s.readV y).toNat ≤ (s.readV x).toNat then 1 else 0 := flagByte_decide_toNat _
  rw [State.writeV_readV, State.writeV_readV] at hx
  refine ⟨t, ht, hpc, hframe, _, hflag, fun hx15 => ?_, fun hx15 hy => ?_, fun hx15 hy => ?_, fun hx15 hy => ?_,
    fun hx15 hy => ?_⟩
  · rw [hvf hx15]
  · rw [hx, if_neg hx15, if_neg hy, byte_sub_toNat_eq_emod]
  · rw [hx, if_neg hx15, if_pos hy, byte_sub_toNat_eq_emod]
  · subst hx15
    rw [hx, if_pos rfl, if_neg hy, byte_sub_toNat_eq_emod]
  · subst hx15
    rw [hx, if_pos rfl, if_pos hy, BitVec.sub_self]
    rfl

/-- Settles O37: with x = F what is shifted is the flag, 0 or 1. -/
theorem shiftRightSetsBitShiftedOut : Obligations.ShiftRightSetsBitShiftedOut := by
  intro s x y
  obtain ⟨t, ht, hpc, hframe, hx, hvf⟩ := exec_flagThen (i := .shr x y) (s := s) (x := x)
    (flag := shiftedOutFlag (s.readV x)) (f := fun t => t.readV x >>> 1) rfl
  have hflag : (shiftedOutFlag (s.readV x)).toNat = (s.readV x).toNat % 2 := by
    simp [shiftedOutFlag, Nat.and_one_is_mod]
  rw [State.writeV_readV] at hx
  refine ⟨t, ht, hpc, hframe, fun hx15 => ⟨?_, ?_⟩, fun hx15 => ?_⟩
  · rw [hx, if_neg hx15, BitVec.toNat_ushiftRight, Nat.shiftRight_one]
  · rw [hvf hx15, hflag]
  · subst hx15
    rw [hx, if_pos rfl, BitVec.toNat_ushiftRight, Nat.shiftRight_one, hflag]
    omega

end Sys2Proof.Machine
end

