-- ==== Sys2Proof/Proofs/Transfers.lean ====
section
/-! PROOF. The index register and the block transfers (43_index_memory.md R150 to R155), and the fetch after a store
(20_memory.md section 8). -/

namespace Sys2Proof.Machine

open Sys2Proof.Claims

/-! ### `I` -/

theorem State.wideV_toNat (s : State) (x : RegIdx) : (s.wideV x).toNat = (s.readV x).toNat :=
  Nat.mod_eq_of_lt ((s.readV x).isLt.trans (by decide))

/-- A glyph's address passes the font for a value above 15, but never wraps. -/
theorem glyphAddress_toNat (b : Byte) : (glyphAddress b).toNat = b.toNat * 5 := by
  have hb := b.isLt
  rw [glyphAddress, BitVec.toNat_ofNat]
  omega

/-- What an instruction answers that writes `I` and advances. -/
theorem exec_setI {i : Instr} {s : State} {a : Word} {n : Nat} (hi : exec i s = .next (s.setI a).advance)
    (ha : a.toNat = n) :
    ∃ t, exec i s = .next t ∧ t.i.toNat = n ∧ t.pc = s.pc + 2 ∧ OnlyChanges s t (fun p => p = .pc ∨ p = .i) :=
  ⟨_, hi, ha, rfl, (s.setI_onlyChanges a).advance⟩

/-- Settles O40: each of the three writes `I`, by a sum or a product whose number is known. -/
theorem indexRegisterWrites : Obligations.IndexRegisterWrites := by
  intro s x nnn
  refine ⟨exec_setI rfl (address_toNat nnn), exec_setI rfl ?_, exec_setI rfl (glyphAddress_toNat _)⟩
  rw [BitVec.toNat_add, State.wideV_toNat]

/-! ### Block transfers -/

section
variable {s : State} {x : RegIdx}

/-- The bounds check of a block transfer is that of its last byte (R55). -/
theorem State.spills_block_iff : s.spills (x.val + 1) = true ↔ 4095 < s.i.toNat + x.val := by
  rw [State.spills_iff]
  omega

/-- The bytes of a block in order. -/
theorem State.block_getElem_reg (s : State) {r : RegIdx} (h : r.val < (s.block x).length) :
    (s.block x)[r.val] = s.readV r :=
  Memory.block_getElem s x r.val h

end

/-- Settles O42: the block's run of stores, which reads back register by register. -/
theorem storeBlockWritesRegisters : Obligations.StoreBlockWritesRegisters := by
  intro s x hwf
  constructor
  · intro hspill
    rw [← raise_eq_halts]
    exact State.within_of_spills (State.spills_block_iff.2 hspill) _
  · intro hfit
    have hin : ¬ s.spills (x.val + 1) = true := by
      rw [State.spills_block_iff]
      omega
    have hend : s.i.toNat + (s.block x).length ≤ Config.memSize := by
      rw [Memory.block_length]
      exact Nat.succ_le_succ hfit
    refine ⟨_, State.within_of_not_spills hin _, fun r hr => ?_, rfl, ?_⟩
    · have hr' : r.val < (s.block x).length := by
        rw [Memory.block_length]
        exact Nat.lt_succ_of_le hr
      rw [State.advance_mem, State.setMem_mem, Memory.read_writeBytes_inside hwf _ _ hend r.val hr',
        s.block_getElem_reg]
    · refine (s.setMem_writeBytes_onlyChanges _ _).advance.mono ?_
      rintro p (hp | ⟨k, hk, hp⟩)
      · exact .inl hp
      · rw [Memory.block_length] at hk
        exact .inr ⟨k, Nat.le_of_lt_succ hk, hp⟩

/-- Settles O43: each register up to x takes its byte in one update. -/
theorem loadBlockReadsRegisters : Obligations.LoadBlockReadsRegisters := by
  intro s x
  constructor
  · intro hspill
    rw [← raise_eq_halts]
    exact State.within_of_spills (State.spills_block_iff.2 hspill) _
  · intro hfit
    have hin : ¬ s.spills (x.val + 1) = true := by
      rw [State.spills_block_iff]
      omega
    refine ⟨_, State.within_of_not_spills hin _, fun r hr => ?_, by simp, (s.loadV_onlyChanges x).advance⟩
    rw [State.advance_readV, State.loadV_readV, if_pos hr]

/-- Settles O55: the Step of the store leaves pc at the two bytes it stored, and the fetch reads Memory as it is then. -/
theorem nextFetchSeesStore : Obligations.NextFetchSeesStore := by
  intro s x r hr hi hwf hfit hrx hpc
  obtain ⟨u, hu, hread, hupc, hframe⟩ := (storeBlockWritesRegisters s x hwf).2 hfit
  have hmode : u.mode = s.mode := hframe .mode (by simp)
  refine ⟨u.tick, step_of_exec hi hu (by simp [hmode, hi.1]), ?_⟩
  have hnext : u.pc.toNat = s.i.toNat + r.val := by
    rw [hupc, BitVec.toNat_add, show (2 : Word).toNat = 2 from rfl, hpc]
    exact Nat.mod_eq_of_lt (by omega)
  have hin : u.tick.pc.toNat ≤ 4094 := by
    rw [State.tick_pc, hnext]
    omega
  have hlo : Memory.read u.mem (s.i.toNat + r.val) = s.readV r := hread r (Fin.le_def.2 (by omega))
  have hhi : Memory.read u.mem (s.i.toNat + (r.val + 1)) = s.readV ⟨r.val + 1, hr⟩ := hread ⟨r.val + 1, hr⟩ hrx
  rw [State.fetch_eq_some hin, State.tick_pc, State.tick_mem, hnext, hlo, Nat.add_assoc, hhi]

end Sys2Proof.Machine
end

