-- ==== Sys2Proof/Proofs/TimersKeys.lean ====
section
/-! PROOF. The timer and key instructions (45_timers_keys.md). -/

namespace Sys2Proof.Machine

open Sys2Proof.Claims

/-! ### Timers -/

/-- Settles O47: each instruction is one write and the advance, and its Step then ticks both timers. -/
theorem timerInstructions : Obligations.TimerInstructions := by
  intro s x
  refine ⟨exec_setAndAdvance rfl, ⟨_, rfl, rfl, rfl, (s.setDT_onlyChanges _).advance⟩,
    ⟨_, rfl, rfl, rfl, (s.setST_onlyChanges _).advance⟩, fun hi => ?_, fun hi => ?_, fun hi => ?_⟩
  · refine ⟨_, step_of_exec hi rfl (by simp [hi.1]), ?_, countDown_toNat s.dt⟩
    rw [State.tick_readV, State.advance_readV, State.writeV_readV, if_pos rfl]
  · exact ⟨_, step_of_exec hi rfl (by simp [hi.1]), countDown_toNat _, countDown_toNat _⟩
  · exact ⟨_, step_of_exec hi rfl (by simp [hi.1]), countDown_toNat _, countDown_toNat _⟩

/-! ### Keys -/

section
variable {s : State} {x : RegIdx}

/-- A skip on a key of a register that holds no key number (R186, D15). -/
theorem State.skipOnKey_of_gt (h : 15 < (s.readV x).toNat) (want : Bool) :
    s.skipOnKey x want = .next (s.raise .keyIndexOutOfRange 0) := by
  simp [State.skipOnKey, State.keyDown_eq_none.2 h]

/-- A skip on the key `k`. -/
theorem State.skipOnKey_of_eq {k : RegIdx} (h : (s.readV x).toNat = k.val) (want : Bool) :
    s.skipOnKey x want = .next (s.skipIf (s.keys[k] == want)) := by
  have hlt : (s.readV x).toNat < 16 := h ▸ k.isLt
  simp [State.skipOnKey, State.keyDown_eq_some hlt, h]

end

/-- Settles O48: by the value of `V[x]`, a fault or a skip whose test is the level of the key. -/
theorem keySkipsTestLevel : Obligations.KeySkipsTestLevel := by
  intro s x
  refine ⟨fun h => ⟨?_, ?_⟩, fun k h => ⟨?_, ?_⟩⟩
  · exact State.skipOnKey_of_gt h true
  · exact State.skipOnKey_of_gt h false
  · exact exec_skip (State.skipOnKey_of_eq h true) beq_iff_eq
  · exact exec_skip (State.skipOnKey_of_eq h false) beq_iff_eq

/-- Settles O49: the wait is armed and pc advanced, and the report is read off the mode and the instruction. -/
theorem keyWaitIsArmed : Obligations.KeyWaitIsArmed := by
  intro s x
  refine ⟨⟨_, rfl, rfl, rfl, rfl, (s.armWait_onlyChanges x).advance⟩, fun hi => ?_⟩
  have hstep : step s = .next (s.armWait x).advance.tick := step_of_exec hi rfl (by simp)
  rw [stepResult_of_not_halted hstep (by simp), State.nextInstr_eq_some_iff.2 hi]
  simp [drew]

end Sys2Proof.Machine
end

