-- ==== Sys2Proof/Proofs/Drawing.lean ====
section
/-! PROOF. The display instructions (44_display.md R170 to R174): the cells a draw covers, the state it ends in, and from
them the effect of one draw and of two. -/

namespace Sys2Proof.Machine

open Sys2Proof.Claims

/-- Settles O44: the buffer cleared, and the frame of a redraw. -/
theorem clearBlanksDisplay : Obligations.ClearBlanksDisplay := by
  intro s
  exact ⟨_, rfl, Display.clear_pixel s.disp, rfl, rfl, rfl,
    (s.redraw_onlyChanges (Display.clear_width _) (Display.clear_height _)).advance⟩

/-! ### The covered cells -/

section
variable {s : State} {x y : RegIdx} {n : Nat}

theorem mem_sprite_iff {p : Pixel} :
    p ∈ s.sprite x y n ↔
      ((s.readV x).toNat ≤ p.1 ∧ p.1 < (s.readV x).toNat + 8 ∧ (s.readV y).toNat ≤ p.2 ∧ p.2 < (s.readV y).toNat + n) ∧
        (Memory.read s.mem (s.i.toNat + (p.2 - (s.readV y).toNat))).getLsbD (7 - (p.1 - (s.readV x).toNat)) = true := by
  simp only [State.sprite, mem_spritePixels, Memory.readBytes_length, Memory.readBytes_getElem]
  constructor
  · rintro ⟨r, hr, hrow, hleft, hright, hbit⟩
    have hr' : p.2 - (s.readV y).toNat = r := by omega
    rw [hr']
    exact ⟨by omega, hbit⟩
  · rintro ⟨⟨hleft, hright, htop, hbottom⟩, hbit⟩
    exact ⟨p.2 - (s.readV y).toNat, by omega, by omega, hleft, hright, hbit⟩

/-- The covered cells are the target cells of the sprite that lie inside the buffer. -/
theorem covered_eq (s : State) (x y : RegIdx) (n : Nat) (p : Pixel) :
    covered s x y n p = (decide (p ∈ s.sprite x y n) && s.disp.inside p) := by
  rw [Bool.eq_iff_iff]
  simp only [covered, Display.inside, Bool.and_eq_true, decide_eq_true_eq, mem_sprite_iff]
  tauto

theorem sprite_nodup (s : State) (x y : RegIdx) (n : Nat) : (s.sprite x y n).Nodup := spritePixels_nodup _ _ _

/-! ### The state a draw ends in -/

/-- The state after `Dxyn` (R172). -/
def State.drawn (s : State) (x y : RegIdx) (n : Nat) : State :=
  ((s.writeV vf (collisionFlag (s.disp.draw (s.sprite x y n)).2)).redraw (s.disp.draw (s.sprite x y n)).1).advance

theorem State.spills_iff_not_fits : s.spills n = true ↔ ¬ Fits s n := by
  rw [State.spills_iff, Fits]
  omega

theorem exec_drw_of_fits (h : Fits s n) : exec (.drw x y n) s = .next (s.drawn x y n) :=
  State.within_of_not_spills (fun hs => State.spills_iff_not_fits.1 hs h) _

theorem exec_drw_of_not_fits (h : ¬ Fits s n) : exec (.drw x y n) s = .next (s.raise .memoryOutOfBounds 0) :=
  State.within_of_spills (State.spills_iff_not_fits.2 h) _

@[simp] theorem State.drawn_disp : (s.drawn x y n).disp = (s.disp.draw (s.sprite x y n)).1 := rfl

@[simp] theorem State.drawn_readV_vf :
    (s.drawn x y n).readV 15 = flagByte (s.disp.draw (s.sprite x y n)).2 := by
  simp [State.drawn, vf, collisionFlag]

theorem State.drawn_onlyChanges :
    OnlyChanges s (s.drawn x y n) (fun p => p = .pc ∨ p = .v 15 ∨ p = .updateScreen ∨ ∃ q, p = .pixel q) :=
  (Completes.drw x y n _ _).onlyChanges

section
variable (hwf : s.disp.wf = true)
include hwf

theorem State.drawn_disp_wf : (s.drawn x y n).disp.wf = true := Display.draw_wf hwf _

/-- A draw turns the covered cells over. -/
theorem State.drawn_pixel (p : Pixel) : (s.drawn x y n).disp.pixel p = (s.disp.pixel p ^^ covered s x y n p) := by
  rw [State.drawn_disp, Display.draw_pixel hwf (sprite_nodup s x y n), covered_eq]

theorem draw_hit_iff_covered :
    (s.disp.draw (s.sprite x y n)).2 = true ↔ ∃ p, covered s x y n p = true ∧ s.disp.pixel p = true := by
  simp [Display.draw_hit hwf (sprite_nodup s x y n), covered_eq, and_assoc]

/-- A draw sets VF exactly when a covered cell was lit. -/
theorem State.drawn_vf_eq_one_iff :
    (s.drawn x y n).readV 15 = 1 ↔ ∃ p, covered s x y n p = true ∧ s.disp.pixel p = true := by
  rw [← draw_hit_iff_covered hwf, State.drawn_readV_vf]
  cases (s.disp.draw (s.sprite x y n)).2 <;> simp [flagByte]

/-- A draw clears VF when no covered cell was lit. -/
theorem State.drawn_vf_eq_zero (h : ∀ p, covered s x y n p = true → s.disp.pixel p = false) :
    (s.drawn x y n).readV 15 = 0 := by
  have hno : ¬ (s.disp.draw (s.sprite x y n)).2 = true := by
    rw [draw_hit_iff_covered hwf]
    rintro ⟨p, hp, hlit⟩
    simp [h p hp] at hlit
  rw [State.drawn_readV_vf, Bool.eq_false_of_not_eq_true hno]
  rfl

end

end

/-- Settles O45: a sprite that spills faults, and one that fits is drawn. -/
theorem drawXorsCoveredCells : Obligations.DrawXorsCoveredCells := by
  intro s x y n hwf
  refine ⟨fun hspill => ?_, fun hfit => ?_⟩
  · rw [← raise_eq_halts]
    exact exec_drw_of_not_fits hspill
  · exact ⟨_, exec_drw_of_fits hfit, State.drawn_pixel hwf, (State.drawn_vf_eq_one_iff hwf).2, State.drawn_vf_eq_zero hwf,
      rfl, rfl, rfl, State.drawn_onlyChanges⟩

/-! ### Two draws -/

section
variable {s s' : State} {x y : RegIdx} {n : Nat}

/-- The inputs of a draw other than the buffer: the coordinates and the bytes of the sprite. -/
structure SameSprite (s s' : State) (x y : RegIdx) (n : Nat) : Prop where
  i_eq : s'.i = s.i
  x_eq : s'.readV x = s.readV x
  y_eq : s'.readV y = s.readV y
  bytes_eq : ∀ k < n, Memory.read s'.mem (s.i.toNat + k) = Memory.read s.mem (s.i.toNat + k)

theorem SameSprite.fits (h : SameSprite s s' x y n) (hfit : Fits s n) : Fits s' n := by
  rwa [Fits, h.i_eq]

theorem SameSprite.sprite_eq (h : SameSprite s s' x y n) : s'.sprite x y n = s.sprite x y n := by
  have hbytes : Memory.readBytes s'.mem s.i.toNat n = Memory.readBytes s.mem s.i.toNat n := by
    refine List.ext_getElem (by simp) fun k hk hk' => ?_
    rw [Memory.readBytes_length] at hk
    rw [Memory.readBytes_getElem, Memory.readBytes_getElem, h.bytes_eq k hk]
  rw [State.sprite, State.sprite, h.i_eq, h.x_eq, h.y_eq, hbytes]

/-- The second of two identical draws covers the cells of the first, which keeps the size of the buffer. -/
theorem SameSprite.covered_eq (h : SameSprite s s' x y n) (hdisp : s'.disp = (s.drawn x y n).disp) (p : Pixel) :
    covered s' x y n p = covered s x y n p := by
  rw [Machine.covered_eq, Machine.covered_eq, h.sprite_eq, hdisp]
  simp [Display.inside]

end

/-- Settles O46: the second draw covers the same cells, so it turns over again what the first turned over; over a clear
region the covered cells are lit by then. -/
theorem drawTwiceRestores : Obligations.DrawTwiceRestores := by
  intro s s' x y n hwf hfit
  refine ⟨s.drawn x y n, exec_drw_of_fits hfit, fun hdisp hi hx hy hbytes => ?_⟩
  have hsame : SameSprite s s' x y n := ⟨hi, hx, hy, hbytes⟩
  have hwf' : s'.disp.wf = true := hdisp ▸ State.drawn_disp_wf hwf
  have hpixel (p : Pixel) : s'.disp.pixel p = (s.disp.pixel p ^^ covered s x y n p) := by
    rw [hdisp, State.drawn_pixel hwf]
  have hcov := hsame.covered_eq hdisp
  refine ⟨s'.drawn x y n, exec_drw_of_fits (hsame.fits hfit), fun p => ?_, State.drawn_vf_eq_one_iff hwf,
    fun hclear => ⟨State.drawn_vf_eq_zero hwf hclear, ?_, fun hnone => ?_⟩⟩
  · rw [State.drawn_pixel hwf', hpixel, hcov, Bool.xor_assoc, Bool.xor_self, Bool.xor_false]
  · rintro ⟨p, hp⟩
    refine (State.drawn_vf_eq_one_iff hwf').2 ⟨p, (hcov p).trans hp, ?_⟩
    rw [hpixel, hclear p hp, hp]
    rfl
  · refine State.drawn_vf_eq_zero hwf' fun p hp => ?_
    rw [hcov, hnone p] at hp
    cases hp

end Sys2Proof.Machine
end

