-- ==== Sys2Proof/Proofs/Unread.lean ====
section
/-! PROOF. What nothing reads: the recorded program length (10_state.md R38), ST but for its decrement (R29), and the count
of draws outside `Cxkk` (40_step_cycle.md R91; log 5). A Step from a state whose values of the three are replaced ends as
the Step from the state itself, those values excepted. -/

namespace Sys2Proof.Machine

open Sys2Proof.Claims

/-! ### The hidden parts -/

/-- `s` with the program length, ST and the count of draws replaced. -/
def State.hide (s : State) (r : Nat) (b : Byte) (n : Nat) : State := { s with romSize := r, st := b, rndCount := n }

@[simp] theorem State.hide_mode (s : State) (r : Nat) (b : Byte) (n : Nat) : (s.hide r b n).mode = s.mode := rfl

@[simp] theorem State.hide_pc (s : State) (r : Nat) (b : Byte) (n : Nat) : (s.hide r b n).pc = s.pc := rfl

theorem State.hide_self (s : State) : s.hide s.romSize s.st s.rndCount = s := rfl

/-- How many draws an instruction takes (R141). -/
def drawsTaken : Instr → Nat
  | .rnd _ _ => 1
  | _ => 0

/-- The value of ST after an instruction that found `b` in it: `Fx18` alone replaces it (45_timers_keys.md R182). -/
def stAfter (s : State) (i : Instr) (b : Byte) : Byte :=
  match i with
  | .ldSTVx x => s.readV x
  | _ => b

theorem drawsTaken_eq_zero {i : Instr} (h : ∀ x kk, i ≠ .rnd x kk) : drawsTaken i = 0 := by
  cases i with
  | rnd x kk => exact absurd rfl (h x kk)
  | _ => rfl

/-! ### Executing an instruction -/

section
variable {s t u : State} (r : Nat) (b : Byte) (n : Nat)

theorem State.within_hide {k : Nat} (h : s.within k t = .next u) :
    (s.hide r b n).within k (t.hide r b n) = .next (u.hide r b n) := by
  obtain ⟨hs, rfl⟩ | ⟨hs, rfl⟩ := State.within_cases h
  · exact State.within_of_spills (s := s.hide r b n) hs _
  · exact State.within_of_not_spills (s := s.hide r b n) (ne_true_of_eq_false hs) _

theorem State.skipOnKey_hide {x : RegIdx} {want : Bool} (h : s.skipOnKey x want = .next u) :
    (s.hide r b n).skipOnKey x want = .next (u.hide r b n) := by
  obtain ⟨hgt, rfl⟩ | ⟨hk, rfl⟩ := State.skipOnKey_cases h
  · exact State.skipOnKey_of_gt (s := s.hide r b n) hgt want
  · exact State.skipOnKey_of_eq (s := s.hide r b n) (k := ⟨_, hk⟩) rfl want

theorem exec_ret_hide (h : exec .ret s = .next u) : exec .ret (s.hide r b n) = .next (u.hide r b n) := by
  cases hp : s.pop with
  | none =>
    cases (exec_ret_of_pop_none hp).symm.trans h
    have hempty := State.pop_eq_none.1 hp
    exact exec_ret_of_pop_none (s := s.hide r b n) (State.pop_eq_none.2 hempty)
  | some p =>
    cases (exec_ret_of_pop_some hp).symm.trans h
    obtain ⟨hd, ha, ht⟩ := State.pop_eq_some hp
    rw [ha, ht]
    exact exec_ret_of_pop_some (s := s.hide r b n) (dif_pos hd)

theorem exec_call_hide {nnn : Addr12} (h : exec (.call nnn) s = .next u) :
    exec (.call nnn) (s.hide r b n) = .next (u.hide r b n) := by
  cases hp : s.push s.pc with
  | none =>
    cases (exec_call_of_push_none nnn hp).symm.trans h
    have hfull := State.push_eq_none.1 hp
    exact exec_call_of_push_none (s := s.hide r b n) nnn (State.push_eq_none.2 hfull)
  | some p =>
    cases (exec_call_of_push_some nnn hp).symm.trans h
    obtain ⟨hd, ht⟩ := State.push_eq_some hp
    rw [ht]
    exact exec_call_of_push_some (s := s.hide r b n) nnn (dif_pos hd)

/-- An instruction acts on the hidden parts only as `stAfter` and `drawsTaken` say, and reads them only where it takes a
draw. -/
theorem exec_hide {i : Instr} (h : exec i s = .next u) (hn : drawsTaken i = 0 ∨ n = s.rndCount) :
    exec i (s.hide r b n) = .next (u.hide r (stAfter s i b) (n + drawsTaken i)) := by
  cases i with
  | ret => exact exec_ret_hide r b n h
  | call => exact exec_call_hide r b n h
  | drw | ldB | storeRegs | loadRegs => exact State.within_hide r b n h
  | skp | sknp => exact State.skipOnKey_hide r b n h
  | rnd x kk =>
    obtain rfl := hn.resolve_left (by simp [drawsTaken])
    cases h
    rfl
  | _ =>
    cases h
    rfl

end

/-! ### The Step -/

/-- The Step from `s`, which ends in `t`, acts on ST by `g` and takes `k` draws, and reads the hidden parts only where it
takes a draw. -/
def StepActsOnHidden (s t : State) (g : Byte → Byte) (k : Nat) : Prop :=
  ∀ r b n, k = 0 ∨ n = s.rndCount → step (s.hide r b n) = .next (t.hide r (g b) (n + k))

section
variable {s t : State}

theorem State.pollKeys_hide (s : State) (r : Nat) (b : Byte) (n : Nat) :
    (s.hide r b n).pollKeys = s.pollKeys.hide r b n := by
  have hkey : (s.hide r b n).pressedKey = s.pressedKey := rfl
  unfold State.pollKeys
  rw [hkey]
  cases s.pressedKey <;> rfl

/-- The Step of an executed instruction. -/
theorem stepActsOnHidden_of_instrAt {i : Instr} (hi : InstrAt s i) (h : step s = .next t) :
    ∃ g, StepActsOnHidden s t g (drawsTaken i) := by
  obtain ⟨u, hu, hstep⟩ := step_executes hi
  cases hstep.symm.trans h
  have hexec (r : Nat) (b : Byte) (n : Nat) (hn : drawsTaken i = 0 ∨ n = s.rndCount) :
      step (s.hide r b n) = .next (u.hide r (stAfter s i b) (n + drawsTaken i)).retire := by
    rw [step_of_instrAt (s := s.hide r b n) hi, exec_hide r b n hu hn, finish]
  by_cases hhalt : u.mode = .halted
  · refine ⟨stAfter s i, fun r b n hn => ?_⟩
    rw [hexec r b n hn, State.retire_halted hhalt]
    exact congrArg Host.Outcome.next (State.retire_halted hhalt)
  · refine ⟨fun b => countDown (stAfter s i b), fun r b n hn => ?_⟩
    rw [hexec r b n hn, State.retire_completed hhalt]
    exact congrArg Host.Outcome.next (State.retire_completed hhalt)

/-- Every Step acts on ST by a function of ST alone, and takes draws only in `Cxkk`. -/
theorem stepActsOnHidden (h : step s = .next t) :
    ∃ g k, StepActsOnHidden s t g k ∧ (k ≠ 0 → ∃ x kk, InstrAt s (.rnd x kk)) := by
  cases hm : s.mode with
  | halted =>
    cases (step_of_halted hm).symm.trans h
    exact ⟨id, 0, fun r b n _ => step_of_halted (s := s.hide r b n) hm, absurd rfl⟩
  | waitingForKey =>
    cases (step_of_waiting hm).symm.trans h
    refine ⟨id, 0, fun r b n _ => ?_, absurd rfl⟩
    rw [step_of_waiting (s := s.hide r b n) hm, State.pollKeys_hide]
    rfl
  | running =>
    obtain hpc | hpc := Nat.lt_or_ge 4094 s.pc.toNat
    · cases (step_of_pc_gt hm hpc).symm.trans h
      exact ⟨id, 0, fun r b n _ => step_of_pc_gt (s := s.hide r b n) hm hpc, absurd rfl⟩
    · cases hd : decode (wordAtPc s) with
      | error e =>
        cases (step_of_decode_error hm hpc hd).symm.trans h
        exact ⟨id, 0, fun r b n _ => step_of_decode_error (s := s.hide r b n) hm hpc hd, absurd rfl⟩
      | ok i =>
        have hi : InstrAt s i := ⟨hm, hpc, hd⟩
        obtain ⟨g, hg⟩ := stepActsOnHidden_of_instrAt hi h
        refine ⟨g, drawsTaken i, hg, fun hk => ?_⟩
        by_contra hno
        refine hk (drawsTaken_eq_zero ?_)
        rintro x kk rfl
        exact hno ⟨x, kk, hi⟩

/-- What a Step did to the hidden parts of its own state. -/
theorem StepActsOnHidden.eq_hide {g : Byte → Byte} {k : Nat} (hg : StepActsOnHidden s t g k) (h : step s = .next t) :
    t = t.hide s.romSize (g s.st) (s.rndCount + k) := by
  have hself := hg s.romSize s.st s.rndCount (.inr rfl)
  rw [State.hide_self, h] at hself
  exact Host.Outcome.next.inj hself

end

/-- Settles O56: a Step that takes no draw acts the same whatever the count of draws is, and leaves it. -/
theorem randomReadOnlyByRnd : Obligations.RandomReadOnlyByRnd := by
  intro s t n hrnd h
  obtain ⟨g, k, hg, hk⟩ := stepActsOnHidden h
  have hk0 : k = 0 := by
    by_contra hne
    obtain ⟨x, kk, hi⟩ := hk hne
    exact hrnd x kk hi
  subst hk0
  have ht := hg.eq_hide h
  have hcount : t.rndCount = s.rndCount := by
    rw [ht]
    rfl
  refine ⟨hcount, (hg s.romSize s.st n (.inl rfl)).trans ?_⟩
  rw [ht]
  rfl

/-- Settles O57: a Step acts the same whatever the program length and ST are, ST's new value excepted. -/
theorem romSizeAndSoundTimerUnread : Obligations.RomSizeAndSoundTimerUnread := by
  intro s t n b h
  obtain ⟨g, k, hg, -⟩ := stepActsOnHidden h
  have hcount : s.rndCount + k = t.rndCount := (congrArg State.rndCount (hg.eq_hide h)).symm
  refine ⟨t.hide n (g b) (s.rndCount + k), hg n b s.rndCount (.inr rfl), fun p hp => ?_⟩
  cases p with
  | romSize | st => exact absurd (by simp) hp
  | rndCount => exact hcount
  | dispSize => exact ⟨rfl, rfl⟩
  | _ => rfl

end Sys2Proof.Machine
end
